-- ==== Sys2Proof/Word.lean ====
section
/-! DEFINITION. The word types of gobits-bsp: bytes of the backing store, 64-bit operand and result registers, 32-bit command words (00_scope.md R9, 10_state.md R24). -/

namespace Sys2Proof

/-- One byte of a backing store (20_memory.md R51). -/
abbrev Byte := BitVec 8

/-- A 64-bit operand or result register (00_scope.md R9, 10_state.md R24). -/
abbrev Word := BitVec 64

/-- A 32-bit command word (30_encoding.md R100); CMD and STATUS have this width (10_state.md R24). -/
abbrev CmdWord := BitVec 32

end Sys2Proof
end

