-- ==== Sys2Proof/Syntax.lean ====
section
/-! DEFINITION. The commands of gobits-bsp: one constructor per row of spec/opcode_table.json (30_encoding.md R103). Operands are not part of a command word: they stand in OPA and OPB (30_encoding.md R104, R105). -/

namespace Sys2Proof

/-- The byte order the BO bit selects: `BO = 0` is big-endian, `BO = 1` little-endian (30_encoding.md R101). -/
inductive ByteOrder where
  | big
  | little
deriving DecidableEq, Repr

/-- A decoded command word (30_encoding.md R103, R106). -/
inductive Instr where
  | remainingBits
  | peekBits
  | consumeBits
  | consumeBytes
  | readBits
  | readU8 (bo : ByteOrder)
  | readU16 (bo : ByteOrder)
  | readU32 (bo : ByteOrder)
  | readU64 (bo : ByteOrder)
  | seek
  | savePos
  | restorePos
  | resetPos
  | readUe
  | readSe
  | writeBits
  | writeU8 (bo : ByteOrder)
  | writeU16 (bo : ByteOrder)
  | writeU32 (bo : ByteOrder)
  | writeU64 (bo : ByteOrder)
  | writeUe
  | writeSe
  /-- Every word that is no legal command, with the word itself (30_encoding.md R107). -/
  | illegal (w : CmdWord)
deriving DecidableEq, Repr

end Sys2Proof
end

