-- ==== Sys2Proof/WellFormed.lean ====
section
/-! DEFINITION. Which instructions are well formed: `illegal` may hold only a word that is no legal command (30_encoding.md R102, R103, R106). Every other constructor is well formed by its type. -/

namespace Sys2Proof

/-- The OP values of the opcode map (30_encoding.md R103). -/
def legalOps : List Nat :=
  [0x01, 0x02, 0x03, 0x04, 0x05, 0x08, 0x09, 0x0A, 0x0B, 0x10, 0x11, 0x12, 0x13, 0x18, 0x19,
    0x20, 0x28, 0x29, 0x2A, 0x2B, 0x30, 0x31]

/-- The OP values that have a byte order: READ_Uxx and WRITE_Uxx (30_encoding.md R101). -/
def orderedOps : List Nat := [0x08, 0x09, 0x0A, 0x0B, 0x28, 0x29, 0x2A, 0x2B]

/-- A word is a legal command: RSV clear, OP in the map, BO set only with a byte order
(30_encoding.md R101 to R103; the mirror image of R106, written apart from the decoder). -/
def legalWord (w : CmdWord) : Bool :=
  w.toNat / 2 ^ 9 == 0 && legalOps.contains (w.toNat % 2 ^ 8) &&
    (!w.getLsbD 8 || orderedOps.contains (w.toNat % 2 ^ 8))

/-- The well-formedness check of an instruction. -/
def Instr.wellFormed : Instr → Bool
  | .illegal w => !legalWord w
  | .remainingBits => true
  | .peekBits => true
  | .consumeBits => true
  | .consumeBytes => true
  | .readBits => true
  | .readU8 _ => true
  | .readU16 _ => true
  | .readU32 _ => true
  | .readU64 _ => true
  | .seek => true
  | .savePos => true
  | .restorePos => true
  | .resetPos => true
  | .readUe => true
  | .readSe => true
  | .writeBits => true
  | .writeU8 _ => true
  | .writeU16 _ => true
  | .writeU32 _ => true
  | .writeU64 _ => true
  | .writeUe => true
  | .writeSe => true

end Sys2Proof
end

