-- ==== Sys2Proof/Decode.lean ====
section
/-! DEFINITION. Decoding of command words, total, and the encoder written from the same map (30_encoding.md R100 to R107). -/

namespace Sys2Proof

/-- OP: bits 7:0 of a command word (30_encoding.md R100). -/
def opField (w : CmdWord) : Nat := (w.extractLsb' 0 8).toNat

/-- BO: bit 8 of a command word (30_encoding.md R100, R101). -/
def boField (w : CmdWord) : ByteOrder := if w.getLsbD 8 then .little else .big

/-- RSV: bits 31:9 of a command word (30_encoding.md R100, R102). -/
def rsvField (w : CmdWord) : Nat := (w.extractLsb' 9 23).toNat

/-- The opcode map: the command an OP value names in a byte order, if any (30_encoding.md R103).
A command without a byte order is named only with `BO = 0` (30_encoding.md R101). -/
def opcodeMap (op : Nat) (bo : ByteOrder) : Option Instr :=
  match op, bo with
  | 0x01, .big => some .remainingBits
  | 0x02, .big => some .peekBits
  | 0x03, .big => some .consumeBits
  | 0x04, .big => some .consumeBytes
  | 0x05, .big => some .readBits
  | 0x08, bo => some (.readU8 bo)
  | 0x09, bo => some (.readU16 bo)
  | 0x0A, bo => some (.readU32 bo)
  | 0x0B, bo => some (.readU64 bo)
  | 0x10, .big => some .seek
  | 0x11, .big => some .savePos
  | 0x12, .big => some .restorePos
  | 0x13, .big => some .resetPos
  | 0x18, .big => some .readUe
  | 0x19, .big => some .readSe
  | 0x20, .big => some .writeBits
  | 0x28, bo => some (.writeU8 bo)
  | 0x29, bo => some (.writeU16 bo)
  | 0x2A, bo => some (.writeU32 bo)
  | 0x2B, bo => some (.writeU64 bo)
  | 0x30, .big => some .writeUe
  | 0x31, .big => some .writeSe
  | _, _ => none

/-- Decoding is total: a legal command, or ILLEGAL by name (30_encoding.md R106, R107). -/
def decode (w : CmdWord) : Instr :=
  if rsvField w ≠ 0 then .illegal w
  else
    match opcodeMap (opField w) (boField w) with
    | some i => i
    | none => .illegal w

/-- The value of the BO bit (30_encoding.md R101). -/
def boBit : ByteOrder → CmdWord
  | .big => 0x000
  | .little => 0x100

/-- The command word `OP | (BO << 8)` of a command (30_encoding.md R103); an illegal word is its own encoding. -/
def encode : Instr → CmdWord
  | .remainingBits => 0x01
  | .peekBits => 0x02
  | .consumeBits => 0x03
  | .consumeBytes => 0x04
  | .readBits => 0x05
  | .readU8 bo => 0x08 ||| boBit bo
  | .readU16 bo => 0x09 ||| boBit bo
  | .readU32 bo => 0x0A ||| boBit bo
  | .readU64 bo => 0x0B ||| boBit bo
  | .seek => 0x10
  | .savePos => 0x11
  | .restorePos => 0x12
  | .resetPos => 0x13
  | .readUe => 0x18
  | .readSe => 0x19
  | .writeBits => 0x20
  | .writeU8 bo => 0x28 ||| boBit bo
  | .writeU16 bo => 0x29 ||| boBit bo
  | .writeU32 bo => 0x2A ||| boBit bo
  | .writeU64 bo => 0x2B ||| boBit bo
  | .writeUe => 0x30
  | .writeSe => 0x31
  | .illegal w => w

/-- The instruction the decoder reads from a table row's word: the low `nbits` bits are `w`, the bits above are 0.
The block takes a command word whole through CMD (10_state.md R25), so no byte order is involved. -/
def decodeTableWord (nbits w : Nat) : Option Instr :=
  if nbits ≤ 32 then some (decode (BitVec.ofNat 32 (w % 2 ^ nbits))) else none

end Sys2Proof
end

