-- ==== Sys2Proof/Config.lean ====
section
/-! DEFINITION. The parameters of the block (00_scope.md R8, R10) and the free values the spec leaves open (93_implementation_defined.md U4 to U7). `CAPACITY`, `ACCESSOR_KIND`, `W`, `STREAM_GAP_FILL` and the failure oracle are fields of State, so that every statement covers every value of them. -/

namespace Sys2Proof

/-- `MAX_FIELD_BITS`: the widest field of PEEK_BITS, READ_BITS and WRITE_BITS (00_scope.md R8). -/
abbrev Config.maxFieldBits : Nat := 64

/-- `MAX_OFFSET`: the largest byte offset and the largest store length (00_scope.md R10). -/
def Config.maxOffset : Nat := 2 ^ 63 - 1

/-- The run of zero bits at which READ_UE gives up (44_golomb_decode.md R171: `z = 64` fails). -/
def Config.zeroRunLimit : Nat := 64

/-- What a byte of a store reads as when nothing has written it.
DESIGN CHOICE (log entry 2), unsafe: the spec leaves the content to the store's owner (10_state.md R41). -/
def Config.unlistedByte : Byte := 0

/-- `CAPACITY` of the store State.reset is attached to.
DESIGN CHOICE (log entry 1), unsafe: the spec leaves it to construction (10_state.md R36, R41). -/
def Config.resetCapacity : Nat := 4096

/-- One draw of the stream's failure oracle, read by one stream call (20_memory.md R70; 93_implementation_defined.md U4 to U7). -/
structure Config.Draw where
  /-- Whether the seek, read or write fails (U7). -/
  fails : Bool
  /-- After a failed write: byte `i` of the range was stored when entry `i` is true, else it keeps its old value (U4). -/
  stored : List Bool
  /-- After a failed write: by how many bytes the stream has grown, cut at the end of the range (U4).
  For a failed `Slice`: the length of the prefix returned (U5).  For a failed `Length`: the value returned (U6). -/
  size : Nat
  /-- After a failed write: the bytes the growth created and the write did not store (log entry 8). -/
  created : List Byte
deriving DecidableEq, Repr, Inhabited

/-- The free values of the failure oracle: nothing constrains them (93_implementation_defined.md U4 to U7; log entry 4). -/
opaque Config.freeDraw : Nat → Config.Draw

/-- The free values of a write whose range passes MAX_OFFSET, which fails whatever the oracle says (log entry 7). -/
opaque Config.freeOverlong : Nat → Config.Draw

end Sys2Proof
end

