-- ==== Sys2Proof/Machine/State.lean ====
section
/-! DEFINITION. The machine's state as plain data (10_state.md R20 to R41), the reasons a step can stop, and the state after reset (10_state.md R41, 70_reset_and_hazards.md R230). -/

namespace Sys2Proof.Machine

/-- Why a step stops with a fault.  No command faults (60_exceptions.md R200). -/
inductive Fault where
  /-- The host started a command, or used the store, while another command was in progress: the spec's model has no such move
  (93_implementation_defined.md V4, 70_reset_and_hazards.md R240).  Raised by `hostServe`.  Safe: the model stops. -/
  | hostOverlap
deriving DecidableEq, Repr

/-- Why a step is refused.  No command is refused. -/
inductive Refusal where
  /-- A command without a meaning in the model.  Raised by no arm of `exec`.  Safe: the model stops. -/
  | notModelled (mnemonic : String)
  /-- The host asked a `SLICE` store for an operation that only a `WINDOWED` store or its stream has
  (20_memory.md R50, R72; 60_exceptions.md R215).  Raised by `hostServe`.  Safe: the model stops. -/
  | windowedOnly
  /-- The host built a `WINDOWED` store with `W = 0`; the spec requires `W ≥ 1` (00_scope.md R10).  Raised by `hostServe`.  Safe. -/
  | zeroWindow
  /-- The host built a store of more than `MAX_OFFSET` bytes; the spec requires `CAPACITY ≤ 2^63 - 1` and gives the same bound
  for every store length (00_scope.md R10).  Raised by `hostServe`.  Safe. -/
  | storeTooLong
  /-- The host named an engine that it has not built.  Raised by `hostServe`.  Safe: the model stops. -/
  | noSuchEngine
  /-- The host named a store that it has not built.  Raised by `hostServe`.  Safe: the model stops. -/
  | noSuchStore
deriving DecidableEq, Repr

/-- The cursor: one Position, naming bit `8·byte + bit` of the store (10_state.md R21).
`byte ≤ 2^63 - 1` is part of the invariant `Engine.wf`. -/
structure Cursor where
  byte : Nat
  bit : Fin 8
deriving DecidableEq, Repr

/-- One engine instance: the cursor and the six interface registers (10_state.md R20, R24). -/
structure Engine where
  cur : Cursor
  cmd : CmdWord
  status : CmdWord
  opa : Word
  opb : Word
  res0 : Word
  res1 : Word
deriving DecidableEq, Repr

/-- Store content: (offset, byte) pairs in the canonical form `Memory.wf`; every other offset holds `Config.unlistedByte`. -/
abbrev Memory := List Host.Cell

/-- A `SLICE` store (20_memory.md R56). -/
structure SliceStore where
  /-- `CAPACITY` (10_state.md R36). -/
  capacity : Nat
  /-- `buf` (10_state.md R38). -/
  buf : Memory
deriving DecidableEq, Repr

/-- The stream's failure oracle (20_memory.md R70, 93_implementation_defined.md U7), a parameter of the store. -/
inductive Oracle where
  /-- A fault-free stream never fails. -/
  | faultFree
  /-- The next stream calls read `script`; when it is used up, call number `next` reads the free value `Config.freeDraw next`. -/
  | draws (script : List Config.Draw) (next : Nat)
deriving DecidableEq, Repr

/-- The seekable stream `S` a `WINDOWED` store mirrors (20_memory.md R70). -/
structure Stream where
  /-- `len(S)` (10_state.md R38). -/
  length : Nat
  /-- The bytes of `S` (10_state.md R38). -/
  bytes : Memory
  /-- `STREAM_GAP_FILL` (20_memory.md R70). -/
  gapFill : Byte
  oracle : Oracle
  /-- How many writes past `MAX_OFFSET` have failed: the next one reads `Config.freeOverlong` of it (log entry 7). -/
  overlong : Nat
deriving DecidableEq, Repr

/-- A `WINDOWED` store (20_memory.md R61). -/
structure WindowedStore where
  /-- `W` (10_state.md R36). -/
  windowSize : Nat
  /-- `bufferIndex` (10_state.md R37). -/
  bufferIndex : Nat
  /-- The valid window bytes; `bufferSize` is its length (10_state.md R37). -/
  window : List Byte
  stream : Stream
deriving DecidableEq, Repr

/-- The backing store an engine is attached to; the constructor is `ACCESSOR_KIND` (00_scope.md R3, R10). -/
inductive Store where
  | slice (st : SliceStore)
  | windowed (w : WindowedStore)
deriving DecidableEq, Repr

/-- A further `WINDOWED` store over the same stream that is not in use at the moment: its configuration and window, the engine
last driven over it and its other engines (60_exceptions.md R216). -/
structure OtherStore where
  windowSize : Nat
  bufferIndex : Nat
  window : List Byte
  eng : Engine
  parked : List Engine
deriving DecidableEq, Repr

/-- What the host, or another path to the stream, can do between commands (60_exceptions.md R215, 10_state.md R24). -/
inductive HostAction where
  /-- Writes `v` to interface register number `reg` (10_state.md R24, R25). -/
  | write (reg : Nat) (v : Word)
  /-- Reads interface register number `reg` (10_state.md R24). -/
  | read (reg : Nat)
  /-- `At(o)`, the offset an s64 (20_memory.md R52). -/
  | storeAt (o : Word)
  /-- `Slice(o, len)`, both s64 (20_memory.md R53). -/
  | storeSlice (o len : Word)
  /-- `Put(bytes, o)`; `none` is the absent (null) input (20_memory.md R54). -/
  | storePut (bytes : Option (List Byte)) (o : Word)
  /-- `Length()` (20_memory.md R55). -/
  | storeLength
  /-- `Reset()` of a `WINDOWED` store (20_memory.md R72). -/
  | storeReset
  /-- Another path writes `bytes` into the stream at `a` (20_memory.md R74). -/
  | streamWrite (a : Nat) (bytes : List Byte)
  /-- Another path truncates the stream to at most `n` bytes (20_memory.md R74). -/
  | streamTruncate (n : Nat)
  /-- Builds a `SLICE` store over these bytes, and an engine over it (70_reset_and_hazards.md R234). -/
  | buildSlice (bytes : List Byte)
  /-- Builds a `WINDOWED` store over a stream, and an engine over it (70_reset_and_hazards.md R234). -/
  | buildWindowed (windowSize : Nat) (gapFill : Byte) (oracle : Oracle) (bytes : List Byte)
  /-- Builds a further engine over the existing store and drives it; the one driven so far is parked (60_exceptions.md R215, R216).
  The window of a `WINDOWED` store is empty at 0 then (10_state.md R41, 70_reset_and_hazards.md R230; DEDUCED, log entry 18). -/
  | buildEngine
  /-- Drives parked engine `k`; the one driven so far takes its place (60_exceptions.md R216). -/
  | selectEngine (k : Nat)
  /-- Drops parked engine `k` (60_exceptions.md R215); the one being driven is parked first (DESIGN CHOICE, log entry 17). -/
  | dropEngine (k : Nat)
  /-- Builds a further `WINDOWED` store over the same stream and an engine over it, and drives that engine
  (60_exceptions.md R216). -/
  | buildStore (windowSize : Nat)
  /-- Uses and drives other store `k`; the store in use so far takes its place (60_exceptions.md R216). -/
  | selectStore (k : Nat)
  /-- Drops other store `k` with its engines (60_exceptions.md R215); the one in use is put aside first
  (DESIGN CHOICE, log entry 17). -/
  | dropStore (k : Nat)
  /-- Breaks the one-owner duty: a command or a store use during a command (70_reset_and_hazards.md R240). -/
  | overlap
deriving DecidableEq, Repr

/-- What the last host action returned to the host (the model's own field, log entry 6). -/
inductive HostAnswer where
  | nothing
  /-- A register read (10_state.md R24). -/
  | word (v : Word)
  /-- `At`: the byte, or failure (20_memory.md R52: a host sees only success or failure). -/
  | byte (b : Option Byte)
  /-- `Slice`: the bytes (20_memory.md R53). -/
  | bytes (bs : List Byte)
  /-- `Put`: true or false (20_memory.md R54); `false(IO)` is a false too (DESIGN CHOICE, log entry 19). -/
  | stored (ok : Bool)
  /-- `Length` (20_memory.md R55). -/
  | length (n : Nat)
deriving DecidableEq, Repr

/-- The machine: the engine being driven, its backing store, the other engines over that store and the other stores over
its stream (60_exceptions.md R216), the host's pending actions, oldest first, and the last answer to the host. -/
structure State where
  eng : Engine
  store : Store
  parked : List Engine
  others : List OtherStore
  host : List HostAction
  answer : HostAnswer
deriving DecidableEq, Repr

/-- An engine right after construction (10_state.md R41, 70_reset_and_hazards.md R230). -/
def Engine.reset : Engine :=
  { cur := { byte := 0, bit := 0 }, cmd := 0, status := 0, opa := 0, opb := 0, res0 := 0, res1 := 0 }

/-- The machine right after reset: one engine, constructed over a `SLICE` store in which nothing is listed
(10_state.md R41; the configuration is a DESIGN CHOICE, log entries 1 and 2), and no host action pending. -/
def State.reset : State :=
  { eng := Engine.reset
    store := .slice { capacity := Config.resetCapacity, buf := [] }
    parked := []
    others := []
    host := []
    answer := .nothing }

end Sys2Proof.Machine
end

