-- ==== Sys2Proof/Machine/Bits.lean ====
section
/-! DEFINITION. Bit-field, byte-order and exponential-Golomb arithmetic on natural numbers (00_scope.md R12 to R15, 41_bit_extract.md R136, 44_golomb_decode.md R173, 45_bit_insert.md R180, 46_golomb_encode.md R190). -/

namespace Sys2Proof.Machine

/-- The bytes as one number, the first byte most significant: `b[0] || b[1] || …` (41_bit_extract.md R136). -/
def ofBytes : List Byte → Nat
  | [] => 0
  | b :: bs => b.toNat * 2 ^ (8 * bs.length) + ofBytes bs

/-- The low `8k` bits of `v` as `k` bytes, the first byte most significant (45_bit_insert.md R180, the bytes `out[j]`). -/
def toBytes : Nat → Nat → List Byte
  | 0, _ => []
  | k + 1, v => BitVec.ofNat 8 (v / 2 ^ (8 * k)) :: toBytes k v

/-- `ceil((t + n) / 8)`: the bytes a field of `n` bits at bit offset `t` touches (20_memory.md R79, 41_bit_extract.md R130). -/
def bytesTouched (t n : Nat) : Nat := (t + n + 7) / 8

/-- `field(b, t, n)`: the `n` bits from bit offset `t` of the bytes, MSB-first (41_bit_extract.md R136). -/
def field (bs : List Byte) (t n : Nat) : Nat :=
  (ofBytes bs >>> (8 * bs.length - t - n)) % 2 ^ n

/-- The merged bytes of `write_field`: the low `n` bits of `v` at bit offset `t`, every other bit kept (45_bit_insert.md R180). -/
def mergeField (bs : List Byte) (t n v : Nat) : List Byte :=
  let k := bs.length
  let x := ofBytes bs
  let s := 8 * k - t - n
  let mask := (2 ^ n - 1) <<< s
  toBytes k ((x &&& ((2 ^ (8 * k) - 1) ^^^ mask)) ||| ((v % 2 ^ n) <<< s))

/-- `bswap` of a value of `k` bytes: the order of its bytes reversed (00_scope.md R13). -/
def byteSwap (k v : Nat) : Nat := ofBytes (toBytes k v).reverse

/-- The value of `k` bytes in a byte order: `bswap` for little-endian (42_fixed_width_unpack.md R154, 45_bit_insert.md R186). -/
def ordered (bo : ByteOrder) (k v : Nat) : Nat :=
  match bo with
  | .big => v
  | .little => byteSwap k v

/-- `bitlen(c)` for `c ≥ 1`: the position of its highest 1-bit plus one (00_scope.md R13). -/
def bitLength (c : Nat) : Nat := Nat.log2 c + 1

/-- The width `2·bitlen(code) - 1` of a code word (46_golomb_encode.md R190). -/
def codeWidth (code : Nat) : Nat := 2 * bitLength code - 1

/-- The signed value an unsigned code value stands for (44_golomb_decode.md R173). -/
def signedOfCode (k : Nat) : Int :=
  if k % 2 = 0 then -((k / 2 : Nat) : Int) else (((k + 1) / 2 : Nat) : Int)

/-- The unsigned code value of a signed value (46_golomb_encode.md R192). -/
def codeOfSigned (v : Int) : Nat :=
  if v = 0 then 0
  else if v > 0 then (2 * v - 1).toNat
  else (2 * -v).toNat

end Sys2Proof.Machine
end

