-- ==== Sys2Proof/Machine/Flags.lean ====
section
/-! DEFINITION. The STATUS register's fields and the error classes (10_state.md R30, R31, R35). -/

namespace Sys2Proof.Machine

/-- The error classes a failure reports (10_state.md R31). -/
inductive ErrClass where
  | insufficientData
  | invalidArgument
  | backingStoreFailure
deriving DecidableEq, Repr

/-- The ERR code of a class (10_state.md R31); NONE is 0. -/
def errCode : ErrClass → Nat
  | .insufficientData => 1
  | .invalidArgument => 2
  | .backingStoreFailure => 3

/-- STATUS after a success: `OK = 1`, `ERR = NONE` (00_scope.md R16, 10_state.md R30). -/
def statusDone : CmdWord := 1

/-- STATUS after a failure: `OK = 0`, ERR in bits 2:1 (00_scope.md R16, 10_state.md R30). -/
def statusFail (e : ErrClass) : CmdWord := BitVec.ofNat 32 (2 * errCode e)

/-- STATUS.OK, bit 0 (10_state.md R30). -/
def okBit (status : CmdWord) : Bool := status.getLsbD 0

/-- STATUS.ERR, bits 2:1 (10_state.md R30). -/
def errField (status : CmdWord) : Nat := (status.extractLsb' 1 2).toNat

end Sys2Proof.Machine
end

