-- ==== Sys2Proof/Machine/Operands.lean ====
section
/-! DEFINITION. The operand forms: every operand is the whole of OPA or OPB, unsigned or two's complement (30_encoding.md R104, R105; 00_scope.md R17). -/

namespace Sys2Proof.Machine

/-- `n`: OPA as u64, never truncated (10_state.md R26, 30_encoding.md R105). -/
abbrev opCount (s : State) : Nat := s.eng.opa.toNat

/-- `byteOffset`: OPA as s64 (30_encoding.md R104). -/
abbrev opByteOffset (s : State) : Int := s.eng.opa.toInt

/-- `bitOffset`: OPB as u64 (30_encoding.md R104). -/
abbrev opBitOffset (s : State) : Nat := s.eng.opb.toNat

/-- `val`: OPB as u64 (10_state.md R27, 30_encoding.md R104). -/
abbrev opValue (s : State) : Nat := s.eng.opb.toNat

/-- `val`: OPB as s64 (30_encoding.md R104). -/
abbrev opSigned (s : State) : Int := s.eng.opb.toInt

end Sys2Proof.Machine
end

