-- ==== Sys2Proof/Machine/Ops.lean ====
section
/-! DEFINITION. The shared operations: store content, the stream, the memory port of both stores (20_memory.md R50 to R74), the walk (41_bit_extract.md R130), the cursor advance (10_state.md R23), the two ways a command ends (00_scope.md R16) and `write_field` (45_bit_insert.md R180). -/

namespace Sys2Proof.Machine

/-! ### Store content -/

/-- The byte at an offset; an unlisted offset holds `Config.unlistedByte`. -/
def Memory.read : Memory → Nat → Byte
  | [], _ => Config.unlistedByte
  | (a, b) :: m, o => if o = a then b else Memory.read m o

/-- Stores one byte, keeping the canonical form. -/
def Memory.write : Memory → Nat → Byte → Memory
  | [], o, v => if v = Config.unlistedByte then [] else [(o, v)]
  | (a, b) :: m, o, v =>
    if o < a then
      if v = Config.unlistedByte then (a, b) :: m else (o, v) :: (a, b) :: m
    else if o = a then
      if v = Config.unlistedByte then m else (o, v) :: m
    else (a, b) :: Memory.write m o v

/-- Every offset is at least `lo`, offsets rise strictly, and no entry holds `Config.unlistedByte`. -/
def Memory.canonicalFrom : Nat → Memory → Bool
  | _, [] => true
  | lo, (a, b) :: m => decide (lo ≤ a) && decide (b ≠ Config.unlistedByte) && Memory.canonicalFrom (a + 1) m

/-- The canonical form of store content. -/
def Memory.wf (m : Memory) : Bool := Memory.canonicalFrom 0 m

/-- Every listed offset is below `n`. -/
def Memory.below (n : Nat) (m : Memory) : Bool := m.all fun c => decide (c.1 < n)

/-- The bytes at `o, o + 1, …, o + n - 1`. -/
def Memory.readBytes (m : Memory) : Nat → Nat → List Byte
  | _, 0 => []
  | o, n + 1 => m.read o :: Memory.readBytes m (o + 1) n

/-- Stores byte `i` at offset `o + i` (20_memory.md R77). -/
def Memory.writeBytes : Memory → Nat → List Byte → Memory
  | m, _, [] => m
  | m, o, b :: bs => Memory.writeBytes (m.write o b) (o + 1) bs

/-- Drops what is listed at or past `n`. -/
def Memory.truncate (m : Memory) (n : Nat) : Memory := m.filter fun c => decide (c.1 < n)

/-! ### The stream (20_memory.md R70) -/

/-- One draw of the failure oracle for one stream call: whether it fails, with the free values of its failure (log entry 4). -/
def Stream.draw (st : Stream) : Option Config.Draw × Stream :=
  match st.oracle with
  | .faultFree => (none, st)
  | .draws [] n =>
    (if (Config.freeDraw n).fails then some (Config.freeDraw n) else none,
      { st with oracle := .draws [] (n + 1) })
  | .draws (d :: ds) n =>
    (if d.fails then some d else none, { st with oracle := .draws ds n })

/-- `S[a .. min(a + m, len(S)) - 1]` (20_memory.md R70). -/
def Stream.slice (st : Stream) (a m : Nat) : List Byte :=
  st.bytes.readBytes a (min m (st.length - a))

/-- Makes the stream `n` bytes long if it is shorter: a created byte is the next of `created`, then STREAM_GAP_FILL. -/
def Stream.grow (st : Stream) (n : Nat) (created : List Byte) : Stream :=
  let gap := n - st.length
  { st with
    length := max st.length n
    bytes := st.bytes.writeBytes st.length
      (created.take gap ++ List.replicate (gap - created.length) st.gapFill) }

/-- A stream write that succeeds: fills the gap up to `a`, stores every byte, grows the length to cover them (20_memory.md R70).
It grows for an engine's write too, which a window left stale by a truncation lets past the end (log entry 16). -/
def Stream.stored (st : Stream) (a : Nat) (bytes : List Byte) : Stream :=
  let grown := st.grow a []
  { grown with
    length := max grown.length (a + bytes.length)
    bytes := grown.bytes.writeBytes a bytes }

/-- The bytes of a failed write that were stored all the same: byte `i` where `stored` says so and the stream reaches it. -/
def Memory.writeSome (limit : Nat) : Memory → Nat → List Byte → List Bool → Memory
  | m, o, b :: bs, d :: ds =>
    Memory.writeSome limit (if d && decide (o < limit) then m.write o b else m) (o + 1) bs ds
  | m, _, _, _ => m

/-- A stream write that fails: the stream may have grown up to the end of the range, and each byte of the range
holds its old or its new value, as the draw has it (20_memory.md R69, 93_implementation_defined.md U4; log entry 8). -/
def Stream.failed (st : Stream) (a : Nat) (bytes : List Byte) (d : Config.Draw) : Stream :=
  let limit := min Config.maxOffset (min (max st.length (a + bytes.length)) (st.length + d.size))
  let grown := st.grow limit d.created
  { grown with bytes := Memory.writeSome grown.length grown.bytes a bytes d.stored }

/-- A stream write that the oracle lets pass: every byte stored; but the largest store length is MAX_OFFSET (00_scope.md R10), so
a write whose range passes it fails, with free values (20_memory.md R69, R70; DEDUCED, log entry 7). -/
def Stream.passed (st : Stream) (a : Nat) (bytes : List Byte) : Bool × Stream :=
  if a + bytes.length ≤ Config.maxOffset then (true, st.stored a bytes)
  else (false, { st with overlong := st.overlong + 1 }.failed a bytes (Config.freeOverlong st.overlong))

/-- `StreamWrite(a, bytes)`: true and every byte stored, or false (20_memory.md R70). -/
def Stream.write (st : Stream) (a : Nat) (bytes : List Byte) : Bool × Stream :=
  match st.draw with
  | (some d, st') => (false, st'.failed a bytes d)
  | (none, st') => st'.passed a bytes

/-! ### The memory port (20_memory.md R50 to R74) -/

/-- Why `At` fails (20_memory.md R52). -/
inductive Reason where
  | oob
  | io
deriving DecidableEq, Repr

/-- How `Put` ends: true, false, or false because the store's own write failed (20_memory.md R54). -/
inductive PutResult where
  | stored
  | rejected
  | ioFailed
deriving DecidableEq, Repr

/-- `At(o)` of a `SLICE` store for `o ≥ 0` (20_memory.md R57). -/
def SliceStore.lookup (st : SliceStore) (o : Nat) : Except Reason Byte :=
  if o < st.capacity then .ok (st.buf.read o) else .error .oob

/-- The cached byte at `o` if `o` is in the window (20_memory.md R62). -/
def WindowedStore.hit (w : WindowedStore) (o : Nat) : Option Byte :=
  if w.bufferIndex ≤ o then w.window[o - w.bufferIndex]? else none

/-- `Reset()`: the empty window (20_memory.md R72); a failed reload or write leaves it too (R64, R69). -/
def WindowedStore.invalidate (w : WindowedStore) : WindowedStore := { w with window := [] }

/-- `reload(o)`: re-centers the window around `o`; false if the stream read fails (20_memory.md R64). -/
def WindowedStore.reload (w : WindowedStore) (o : Nat) : Bool × WindowedStore :=
  let start := o - w.windowSize / 2
  match w.stream.draw with
  | (some _, st) => (false, { w with stream := st }.invalidate)
  | (none, st) => (true, { w with stream := st, bufferIndex := start, window := st.slice start w.windowSize })

/-- `At(o)` of a `WINDOWED` store for `o ≥ 0` (20_memory.md R63). -/
def WindowedStore.lookup (w : WindowedStore) (o : Nat) : Except Reason Byte × WindowedStore :=
  match w.hit o with
  | some b => (.ok b, w)
  | none =>
    match w.reload o with
    | (false, w') => (.error .io, w')
    | (true, w') =>
      match w'.hit o with
      | some b => (.ok b, w')
      | none => (.error .oob, w')

/-- The window from offset `a` on, with every byte that `bytes`, written at `o`, covers replaced (20_memory.md R68). -/
def patchWindow (o : Nat) (bytes : List Byte) : Nat → List Byte → List Byte
  | _, [] => []
  | a, b :: bs =>
    (if o ≤ a then (bytes[a - o]?).getD b else b) :: patchWindow o bytes (a + 1) bs

/-- `Put(bytes, o)` of a `SLICE` store for `o ≥ 0` and bytes present (20_memory.md R59). -/
def SliceStore.put (st : SliceStore) (bytes : List Byte) (o : Nat) : PutResult × SliceStore :=
  if bytes.length = 0 then (.stored, st)
  else if o + bytes.length > st.capacity then (.rejected, st)
  else (.stored, { st with buf := st.buf.writeBytes o bytes })

/-- `Put(bytes, o)` of a `WINDOWED` store for `o ≥ 0` and bytes present (20_memory.md R67 to R69).
The engine's `Put` and the host's are one operation: it writes the stream also past the end (DESIGN CHOICE, log entry 16). -/
def WindowedStore.put (w : WindowedStore) (bytes : List Byte) (o : Nat) : PutResult × WindowedStore :=
  if bytes.length = 0 then (.stored, w)
  else
    match w.stream.write o bytes with
    | (false, st) => (.ioFailed, { w with stream := st }.invalidate)
    | (true, st) => (.stored, { w with stream := st, window := patchWindow o bytes w.bufferIndex w.window })

/-- `At(o)` for `o ≥ 0`, on either store (20_memory.md R52). -/
def Store.lookup : Store → Nat → Except Reason Byte × Store
  | .slice st, o => (st.lookup o, .slice st)
  | .windowed w, o =>
    match w.lookup o with
    | (r, w') => (r, .windowed w')

/-- `Put(bytes, o)` for `o ≥ 0` and bytes present, on either store (20_memory.md R54). -/
def Store.put : Store → List Byte → Nat → PutResult × Store
  | .slice st, bytes, o =>
    match st.put bytes o with
    | (r, st') => (r, .slice st')
  | .windowed w, bytes, o =>
    match w.put bytes o with
    | (r, w') => (r, .windowed w')

/-- `Length()` of a fault-free store: CAPACITY, or `len(S)` (20_memory.md R60, R71). -/
def Store.length : Store → Nat
  | .slice st => st.capacity
  | .windowed w => w.stream.length

/-- The content of a store: `buf`, or the bytes of `S` (10_state.md R38). -/
def Store.content : Store → Memory
  | .slice st => st.buf
  | .windowed w => w.stream.bytes

/-- The byte of the store's content at an offset of the store (20_memory.md R51). -/
def Store.byteAt (st : Store) (o : Nat) : Option Byte :=
  if o < st.length then some (st.content.read o) else none

/-! ### The walk and the fields it yields (41_bit_extract.md R130, R136, R137) -/

/-- `k` lookups from offset `o` on, stopping at the first failure (41_bit_extract.md R130). -/
def walkFrom : Nat → Nat → Store → Except Reason (List Byte) × Store
  | 0, _, st => (.ok [], st)
  | k + 1, o, st =>
    match st.lookup o with
    | (.error r, st') => (.error r, st')
    | (.ok b, st') =>
      match walkFrom k (o + 1) st' with
      | (.error r, st'') => (.error r, st'')
      | (.ok bs, st'') => (.ok (b :: bs), st'')

/-- `walk(n)` from a cursor: the bytes that hold the next `n` bits (41_bit_extract.md R130). -/
def walk (n : Nat) (c : Cursor) (st : Store) : Except Reason (List Byte) × Store :=
  if n = 0 then (.ok [], st) else walkFrom (bytesTouched c.bit n) c.byte st

/-- `advance(n)`: exact, no wrap (10_state.md R23, 00_scope.md R12). -/
def advance (n : Nat) (c : Cursor) : Cursor :=
  let p := 8 * c.byte + c.bit + n
  { byte := p / 8, bit := ⟨p % 8, Nat.mod_lt p (by decide)⟩ }

/-- The error class of a failed lookup (41_bit_extract.md R137). -/
def reasonClass : Reason → ErrClass
  | .oob => .insufficientData
  | .io => .backingStoreFailure

/-- One walk and the field it yields, or the class of its failure (41_bit_extract.md R130, R136, R137). -/
def fetchField (n : Nat) (c : Cursor) (st : Store) : Except ErrClass Nat × Store :=
  match walk n c st with
  | (.error r, st') => (.error (reasonClass r), st')
  | (.ok bs, st') => (.ok (field bs c.bit n), st')

/-- The zero scan of READ_UE: the count of zero bits and the cursor at the 1-bit, which is not consumed.
`fuel` is how many zero bits may still be consumed (44_golomb_decode.md R171). -/
def scanZeros : Nat → Nat → Cursor → Store → Except ErrClass (Nat × Cursor) × Store
  | 0, _, _, st => (.error .invalidArgument, st)
  | fuel + 1, z, c, st =>
    match fetchField 1 c st with
    | (.error e, st') => (.error e, st')
    | (.ok v, st') =>
      if v = 1 then (.ok (z, c), st') else scanZeros fuel (z + 1) (advance 1 c) st'

/-- The decoding READ_UE and READ_SE share: the value and the cursor after the code word (44_golomb_decode.md R171). -/
def fetchCode (c : Cursor) (st : Store) : Except ErrClass (Nat × Cursor) × Store :=
  match scanZeros Config.zeroRunLimit 0 c st with
  | (.error e, st') => (.error e, st')
  | (.ok (z, c'), st') =>
    match fetchField (z + 1) c' st' with
    | (.error e, st'') => (.error e, st'')
    | (.ok code, st'') => (.ok (code - 1, advance (z + 1) c'), st'')

/-! ### How a command ends (00_scope.md R16) -/

/-- The state with another store. -/
def State.withStore (s : State) (st : Store) : State := { s with store := st }

/-- `cur <- c` (00_scope.md R16). -/
def State.moveTo (s : State) (c : Cursor) : State := { s with eng := { s.eng with cur := c } }

/-- `done(r0, r1)`: `OK = 1`, `ERR = NONE`, the results (00_scope.md R16, 10_state.md R32). -/
def State.done (s : State) (r0 r1 : Word) : State :=
  { s with eng := { s.eng with status := statusDone, res0 := r0, res1 := r1 } }

/-- `fail(E)` of a command entered with cursor `entry`: `OK = 0`, `ERR = E`, results 0, the entry cursor restored.
It stands in the place of taking an exception; there is no return from one (00_scope.md R16; 60_exceptions.md R200, R201, R205). -/
def State.fail (s : State) (entry : Cursor) (e : ErrClass) : State :=
  { s with eng := { s.eng with cur := entry, status := statusFail e, res0 := 0, res1 := 0 } }

/-- Ends a command with what a lookup-and-field operation answered: its failure, or the continuation on its value. -/
def State.finish {α : Type} (s : State) (r : Except ErrClass α × Store) (k : State → α → State) : State :=
  match r with
  | (.error e, st) => (s.withStore st).fail s.eng.cur e
  | (.ok v, st) => k (s.withStore st) v

/-- `write_field(v, n)` and `done(0, 0)`: one walk, one `Put` of the merged bytes, then the advance (45_bit_insert.md R180).
Where a stale window lets the walk past the stream's end, the `Put` follows and grows the stream, as the rule's pseudocode has it
and its sentence "The engine never writes past `Length()`" has it not (DESIGN CHOICE, log entry 16). -/
def State.writeField (s : State) (v n : Nat) : State :=
  match walk n s.eng.cur s.store with
  | (.error r, st) => (s.withStore st).fail s.eng.cur (reasonClass r)
  | (.ok bs, st) =>
    match st.put (mergeField bs s.eng.cur.bit n v) s.eng.cur.byte with
    | (.stored, st') => ((s.withStore st').moveTo (advance n s.eng.cur)).done 0 0
    | (.rejected, st') => (s.withStore st').fail s.eng.cur .backingStoreFailure
    | (.ioFailed, st') => (s.withStore st').fail s.eng.cur .backingStoreFailure

end Sys2Proof.Machine
end

