-- ==== Sys2Proof/Machine/BitExtract.lean ====
section
/-! DEFINITION. REMAINING_BITS, PEEK_BITS, CONSUME_BITS, CONSUME_BYTES, READ_BITS (41_bit_extract.md R131 to R135). -/

namespace Sys2Proof.Machine

/-- REMAINING_BITS: RES0 says whether the walk succeeds; always OK (41_bit_extract.md R131). -/
def execRemainingBits (s : State) : Host.Outcome State Fault Refusal :=
  match walk (opCount s) s.eng.cur s.store with
  | (.ok _, st) => .next ((s.withStore st).done 1 0)
  | (.error _, st) => .next ((s.withStore st).done 0 0)

/-- PEEK_BITS: the next `n ≤ 64` bits, the cursor kept (41_bit_extract.md R132). -/
def execPeekBits (s : State) : Host.Outcome State Fault Refusal :=
  let n := opCount s
  if n > Config.maxFieldBits then .next (s.fail s.eng.cur .invalidArgument)
  else if n = 0 then .next (s.done 0 0)
  else .next (s.finish (fetchField n s.eng.cur s.store) fun s' v => s'.done (BitVec.ofNat 64 v) 0)

/-- The advance over `m` bits that CONSUME_BITS and CONSUME_BYTES share (41_bit_extract.md R133, R134). -/
def consume (m : Nat) (s : State) : State :=
  match walk m s.eng.cur s.store with
  | (.error r, st) => (s.withStore st).fail s.eng.cur (reasonClass r)
  | (.ok _, st) => ((s.withStore st).moveTo (advance m s.eng.cur)).done 0 0

/-- CONSUME_BITS: any count (41_bit_extract.md R133). -/
def execConsumeBits (s : State) : Host.Outcome State Fault Refusal :=
  .next (consume (opCount s) s)

/-- CONSUME_BYTES: `8n` bits, exact (41_bit_extract.md R134). -/
def execConsumeBytes (s : State) : Host.Outcome State Fault Refusal :=
  .next (consume (8 * opCount s) s)

/-- READ_BITS: the next `n ≤ 64` bits and the advance past them (41_bit_extract.md R135). -/
def execReadBits (s : State) : Host.Outcome State Fault Refusal :=
  let n := opCount s
  if n > Config.maxFieldBits then .next (s.fail s.eng.cur .invalidArgument)
  else if n = 0 then .next (s.done 0 0)
  else
    .next (s.finish (fetchField n s.eng.cur s.store) fun s' v =>
      (s'.moveTo (advance n s.eng.cur)).done (BitVec.ofNat 64 v) 0)

end Sys2Proof.Machine
end

