-- ==== Sys2Proof/Machine/BitInsert.lean ====
section
/-! DEFINITION. WRITE_BITS, WRITE_U8, WRITE_U16, WRITE_U32, WRITE_U64 (45_bit_insert.md R181 to R186). -/

namespace Sys2Proof.Machine

/-- WRITE_BITS: the low `n ≤ 64` bits of `val` (45_bit_insert.md R181). -/
def execWriteBits (s : State) : Host.Outcome State Fault Refusal :=
  let n := opCount s
  if n > Config.maxFieldBits then .next (s.fail s.eng.cur .invalidArgument)
  else if n = 0 then .next (s.done 0 0)
  else .next (s.writeField (opValue s) n)

/-- `write_uint(8k)`: the low `k` bytes of `val`, swapped for little-endian (45_bit_insert.md R186). -/
def writeUint (k : Nat) (bo : ByteOrder) (s : State) : State :=
  s.writeField (ordered bo k (opValue s % 2 ^ (8 * k))) (8 * k)

/-- WRITE_U8 (45_bit_insert.md R182). -/
def execWriteU8 (bo : ByteOrder) (s : State) : Host.Outcome State Fault Refusal := .next (writeUint 1 bo s)

/-- WRITE_U16 (45_bit_insert.md R183). -/
def execWriteU16 (bo : ByteOrder) (s : State) : Host.Outcome State Fault Refusal := .next (writeUint 2 bo s)

/-- WRITE_U32 (45_bit_insert.md R184). -/
def execWriteU32 (bo : ByteOrder) (s : State) : Host.Outcome State Fault Refusal := .next (writeUint 4 bo s)

/-- WRITE_U64 (45_bit_insert.md R185). -/
def execWriteU64 (bo : ByteOrder) (s : State) : Host.Outcome State Fault Refusal := .next (writeUint 8 bo s)

end Sys2Proof.Machine
end

