-- ==== Sys2Proof/Machine/CursorControl.lean ====
section
/-! DEFINITION. SEEK, SAVE_POS, RESTORE_POS, RESET_POS (43_cursor_control.md R160 to R163). -/

namespace Sys2Proof.Machine

/-- The Position `(b, t)` of two operands that passed the range checks (43_cursor_control.md R160, R162). -/
def position (b : Int) (t : Nat) : Cursor :=
  { byte := b.toNat, bit := ⟨t % 8, Nat.mod_lt t (by decide)⟩ }

/-- SEEK: bit offset, sign and existence of the byte, in that order (43_cursor_control.md R160). -/
def execSeek (s : State) : Host.Outcome State Fault Refusal :=
  let b := opByteOffset s
  let t := opBitOffset s
  if t > 7 then .next (s.fail s.eng.cur .invalidArgument)
  else if b < 0 then .next (s.fail s.eng.cur .invalidArgument)
  else
    match s.store.lookup b.toNat with
    | (.error .oob, st) => .next ((s.withStore st).fail s.eng.cur .insufficientData)
    | (.error .io, st) => .next ((s.withStore st).fail s.eng.cur .backingStoreFailure)
    | (.ok _, st) => .next (((s.withStore st).moveTo (position b t)).done 0 0)

/-- SAVE_POS: the cursor in RES0 and RES1 (43_cursor_control.md R161). -/
def execSavePos (s : State) : Host.Outcome State Fault Refusal :=
  .next (s.done (BitVec.ofNat 64 s.eng.cur.byte) (BitVec.ofNat 64 s.eng.cur.bit))

/-- RESTORE_POS: range checks only, no lookup (43_cursor_control.md R162). -/
def execRestorePos (s : State) : Host.Outcome State Fault Refusal :=
  let b := opByteOffset s
  let t := opBitOffset s
  if t > 7 ∨ b < 0 then .next (s.fail s.eng.cur .invalidArgument)
  else .next ((s.moveTo (position b t)).done 0 0)

/-- RESET_POS: the cursor to `(0, 0)` (43_cursor_control.md R163). -/
def execResetPos (s : State) : Host.Outcome State Fault Refusal :=
  .next ((s.moveTo { byte := 0, bit := 0 }).done 0 0)

end Sys2Proof.Machine
end

