-- ==== Sys2Proof/Machine/GolombDecode.lean ====
section
/-! DEFINITION. READ_UE and READ_SE (44_golomb_decode.md R170 to R173). -/

namespace Sys2Proof.Machine

/-- READ_UE: one unsigned exponential-Golomb code (44_golomb_decode.md R171). -/
def execReadUe (s : State) : Host.Outcome State Fault Refusal :=
  .next (s.finish (fetchCode s.eng.cur s.store) fun s' r =>
    (s'.moveTo r.2).done (BitVec.ofNat 64 r.1) 0)

/-- READ_SE: the signed value of one code, two's complement (44_golomb_decode.md R172, R173). -/
def execReadSe (s : State) : Host.Outcome State Fault Refusal :=
  .next (s.finish (fetchCode s.eng.cur s.store) fun s' r =>
    (s'.moveTo r.2).done (BitVec.ofInt 64 (signedOfCode r.1)) 0)

end Sys2Proof.Machine
end

