-- ==== Sys2Proof/Machine/GolombEncode.lean ====
section
/-! DEFINITION. WRITE_UE and WRITE_SE (46_golomb_encode.md R190 to R192). -/

namespace Sys2Proof.Machine

/-- The code word of an unsigned value as one field, up to 127 bits wide (46_golomb_encode.md R190, R191). -/
def writeCode (k : Nat) (s : State) : State := s.writeField (k + 1) (codeWidth (k + 1))

/-- WRITE_UE: fails only for the maximum value (46_golomb_encode.md R191, 90_conflicts.md C3). -/
def execWriteUe (s : State) : Host.Outcome State Fault Refusal :=
  if opValue s = 2 ^ 64 - 1 then .next (s.fail s.eng.cur .invalidArgument)
  else .next (writeCode (opValue s) s)

/-- WRITE_SE: fails only for the minimum value (46_golomb_encode.md R192). -/
def execWriteSe (s : State) : Host.Outcome State Fault Refusal :=
  if opSigned s = -2 ^ 63 then .next (s.fail s.eng.cur .invalidArgument)
  else .next (writeCode (codeOfSigned (opSigned s)) s)

end Sys2Proof.Machine
end

