-- ==== Sys2Proof/Machine/Illegal.lean ====
section
/-! DEFINITION. What an illegal command word does (30_encoding.md R107). -/

namespace Sys2Proof.Machine

/-- ILLEGAL: `fail(INVALID_ARGUMENT)` and nothing else (30_encoding.md R107). -/
def execIllegal (s : State) : Host.Outcome State Fault Refusal :=
  .next (s.fail s.eng.cur .invalidArgument)

end Sys2Proof.Machine
end

