-- ==== Sys2Proof/Machine/Unpack.lean ====
section
/-! DEFINITION. READ_U8, READ_U16, READ_U32, READ_U64 (42_fixed_width_unpack.md R150 to R154). -/

namespace Sys2Proof.Machine

/-- `read_uint(8k)`: `k` bytes MSB-first, swapped for little-endian (42_fixed_width_unpack.md R154). -/
def readUint (k : Nat) (bo : ByteOrder) (s : State) : State :=
  s.finish (fetchField (8 * k) s.eng.cur s.store) fun s' v =>
    (s'.moveTo (advance (8 * k) s.eng.cur)).done (BitVec.ofNat 64 (ordered bo k v)) 0

/-- READ_U8 (42_fixed_width_unpack.md R150). -/
def execReadU8 (bo : ByteOrder) (s : State) : Host.Outcome State Fault Refusal := .next (readUint 1 bo s)

/-- READ_U16 (42_fixed_width_unpack.md R151). -/
def execReadU16 (bo : ByteOrder) (s : State) : Host.Outcome State Fault Refusal := .next (readUint 2 bo s)

/-- READ_U32 (42_fixed_width_unpack.md R152). -/
def execReadU32 (bo : ByteOrder) (s : State) : Host.Outcome State Fault Refusal := .next (readUint 4 bo s)

/-- READ_U64 (42_fixed_width_unpack.md R153). -/
def execReadU64 (bo : ByteOrder) (s : State) : Host.Outcome State Fault Refusal := .next (readUint 8 bo s)

end Sys2Proof.Machine
end

