-- ==== Sys2Proof/Machine/Dispatch.lean ====
section
/-! DEFINITION. One arm per command, each a direct call of its meaning. -/

namespace Sys2Proof.Machine

def exec (i : Instr) (s : State) : Host.Outcome State Fault Refusal :=
  match i with
  | .remainingBits => Sys2Proof.Machine.execRemainingBits s
  | .peekBits => Sys2Proof.Machine.execPeekBits s
  | .consumeBits => Sys2Proof.Machine.execConsumeBits s
  | .consumeBytes => Sys2Proof.Machine.execConsumeBytes s
  | .readBits => Sys2Proof.Machine.execReadBits s
  | .readU8 bo => Sys2Proof.Machine.execReadU8 bo s
  | .readU16 bo => Sys2Proof.Machine.execReadU16 bo s
  | .readU32 bo => Sys2Proof.Machine.execReadU32 bo s
  | .readU64 bo => Sys2Proof.Machine.execReadU64 bo s
  | .seek => Sys2Proof.Machine.execSeek s
  | .savePos => Sys2Proof.Machine.execSavePos s
  | .restorePos => Sys2Proof.Machine.execRestorePos s
  | .resetPos => Sys2Proof.Machine.execResetPos s
  | .readUe => Sys2Proof.Machine.execReadUe s
  | .readSe => Sys2Proof.Machine.execReadSe s
  | .writeBits => Sys2Proof.Machine.execWriteBits s
  | .writeU8 bo => Sys2Proof.Machine.execWriteU8 bo s
  | .writeU16 bo => Sys2Proof.Machine.execWriteU16 bo s
  | .writeU32 bo => Sys2Proof.Machine.execWriteU32 bo s
  | .writeU64 bo => Sys2Proof.Machine.execWriteU64 bo s
  | .writeUe => Sys2Proof.Machine.execWriteUe s
  | .writeSe => Sys2Proof.Machine.execWriteSe s
  | .illegal _ => Sys2Proof.Machine.execIllegal s

end Sys2Proof.Machine
end

