-- ==== Sys2Proof/Machine/HostPort.lean ====
section
/-! DEFINITION. What the host, and another path to the stream, do between commands (60_exceptions.md R215, R216; 10_state.md R24, R25; 20_memory.md R52 to R74). -/

namespace Sys2Proof.Machine

/-- The command word a host action starts: a write to register 0, CMD (10_state.md R24, R25).
The bus is 64 bits wide and CMD takes its low 32 bits (DESIGN CHOICE, log entry 11). -/
def commandOf : HostAction → Option CmdWord
  | .write 0 v => some (v.setWidth 32)
  | _ => none

/-- The state with the host's first action taken off and no answer yet. -/
def State.taken (s : State) : State := { s with host := s.host.tail, answer := .nothing }

/-- CMD stores the word that was written (10_state.md R25). -/
def State.latchCmd (s : State) (w : CmdWord) : State := { s with eng := { s.eng with cmd := w } }

/-- What a read of a register number returns; a number other than 0 to 5 reads 0 (10_state.md R24). -/
def readRegister (e : Engine) : Nat → Word
  | 0 => e.cmd.setWidth 64
  | 1 => e.status.setWidth 64
  | 2 => e.opa
  | 3 => e.opb
  | 4 => e.res0
  | 5 => e.res1
  | _ => 0

/-- A write to a register number other than CMD: OPA and OPB are stored, every other write is ignored (10_state.md R24). -/
def writeRegister (e : Engine) (n : Nat) (v : Word) : Engine :=
  match n with
  | 2 => { e with opa := v }
  | 3 => { e with opb := v }
  | _ => e

/-- `At(o)`: a negative offset fails without touching the stream (20_memory.md R52, R57, R63). -/
def Store.at (st : Store) (o : Int) : Option Byte × Store :=
  if o < 0 then (none, st)
  else
    match st.lookup o.toNat with
    | (.ok b, st') => (some b, st')
    | (.error _, st') => (none, st')

/-- `Slice(o, len)` (20_memory.md R53): a `SLICE` store clamps (R58); a `WINDOWED` store reads the stream past the window,
and a failed read returns a prefix that the draw chooses (R66, 93_implementation_defined.md U5). -/
def Store.sliceBytes (st : Store) (o len : Int) : List Byte × Store :=
  if len ≤ 0 ∨ o < 0 then ([], st)
  else
    match st with
    | .slice b => (b.buf.readBytes o.toNat (min len.toNat (b.capacity - o.toNat)), .slice b)
    | .windowed w =>
      match w.stream.draw with
      | (none, str) => (w.stream.slice o.toNat len.toNat, .windowed { w with stream := str })
      | (some d, str) => ((w.stream.slice o.toNat len.toNat).take d.size, .windowed { w with stream := str })

/-- `Put(bytes, o)`: the checks in the order offset, absent, empty (20_memory.md R54, R59, R67; 90_conflicts.md C4).
The host gets true or false: `false(IO)` is a plain false for it, as `At`'s reason is no part of its answer
(20_memory.md R52; DESIGN CHOICE, log entry 19). -/
def Store.putChecked (st : Store) (bytes : Option (List Byte)) (o : Int) : Bool × Store :=
  if o < 0 then (false, st)
  else
    match bytes with
    | none => (false, st)
    | some bs =>
      match st.put bs o.toNat with
      | (.stored, st') => (true, st')
      | (.rejected, st') => (false, st')
      | (.ioFailed, st') => (false, st')

/-- `Length()`: CAPACITY (20_memory.md R60), or `len(S)` by a seek that may fail and then returns any value
(R71, 93_implementation_defined.md U6); the window is not disturbed. -/
def Store.reportLength : Store → Nat × Store
  | .slice st => (st.capacity, .slice st)
  | .windowed w =>
    match w.stream.draw with
    | (none, str) => (w.stream.length, .windowed { w with stream := str })
    | (some d, str) => (d.size, .windowed { w with stream := str })

/-- A `SLICE` store over these bytes (70_reset_and_hazards.md R231, R234). -/
def newSlice (bytes : List Byte) : Store :=
  .slice { capacity := bytes.length, buf := Memory.writeBytes [] 0 bytes }

/-- A `WINDOWED` store over a stream of these bytes: an empty window at 0 (10_state.md R41, 70_reset_and_hazards.md R231). -/
def newWindowed (windowSize : Nat) (gapFill : Byte) (oracle : Oracle) (bytes : List Byte) : Store :=
  .windowed
    { windowSize := windowSize
      bufferIndex := 0
      window := []
      stream :=
        { length := bytes.length, bytes := Memory.writeBytes [] 0 bytes, gapFill := gapFill, oracle := oracle, overlong := 0 } }

/-- The store as the construction of an engine over it leaves it: the content as it is, an empty window at 0
(10_state.md R41, 70_reset_and_hazards.md R230, R231; DEDUCED, log entry 18). -/
def Store.windowReset : Store → Store
  | .slice st => .slice st
  | .windowed w => .windowed { w with bufferIndex := 0, window := [] }

/-- The machine after a store and an engine over it have been built (70_reset_and_hazards.md R230, R234). -/
def State.built (s : State) (st : Store) : State := { s with eng := Engine.reset, store := st, parked := [], others := [] }

/-- The store in use, put aside with its engines (60_exceptions.md R216). -/
def State.asOther (s : State) (w : WindowedStore) : OtherStore :=
  { windowSize := w.windowSize, bufferIndex := w.bufferIndex, window := w.window, eng := s.eng, parked := s.parked }

/-- The machine with another store over the same stream in use (60_exceptions.md R216). -/
def State.switchTo (s : State) (str : Stream) (o : OtherStore) (others : List OtherStore) : State :=
  { s with
    eng := o.eng
    store := .windowed { windowSize := o.windowSize, bufferIndex := o.bufferIndex, window := o.window, stream := str }
    parked := o.parked
    others := others }

/-- A further `WINDOWED` store as it is built: an empty window at 0, one engine as after reset
(10_state.md R41, 70_reset_and_hazards.md R231). -/
def newOther (windowSize : Nat) : OtherStore :=
  { windowSize := windowSize, bufferIndex := 0, window := [], eng := Engine.reset, parked := [] }

/-- What a host action other than a write to CMD does (60_exceptions.md R215, R216).
One engine and one store are always in use: a drop takes one that is not (DESIGN CHOICE, log entry 17). -/
def hostServe (a : HostAction) (s : State) : Host.Outcome State Fault Refusal :=
  match a with
  | .write n v => .next { s with eng := writeRegister s.eng n v }
  | .read n => .next { s with answer := .word (readRegister s.eng n) }
  | .storeAt o =>
    match s.store.at o.toInt with
    | (b, st) => .next { s with store := st, answer := .byte b }
  | .storeSlice o len =>
    match s.store.sliceBytes o.toInt len.toInt with
    | (bs, st) => .next { s with store := st, answer := .bytes bs }
  | .storePut bytes o =>
    match s.store.putChecked bytes o.toInt with
    | (ok, st) => .next { s with store := st, answer := .stored ok }
  | .storeLength =>
    match s.store.reportLength with
    | (n, st) => .next { s with store := st, answer := .length n }
  | .storeReset =>
    match s.store with
    | .slice _ => .refused .windowedOnly
    | .windowed w => .next { s with store := .windowed w.invalidate }
  | .streamWrite p bytes =>
    match s.store with
    | .slice _ => .refused .windowedOnly
    | .windowed w => .next { s with store := .windowed { w with stream := (w.stream.passed p bytes).2 } }
  | .streamTruncate n =>
    match s.store with
    | .slice _ => .refused .windowedOnly
    | .windowed w =>
      .next { s with
        store := .windowed { w with
          stream := { w.stream with length := min w.stream.length n, bytes := w.stream.bytes.truncate n } } }
  | .buildSlice bytes =>
    if bytes.length > Config.maxOffset then .refused .storeTooLong
    else .next (s.built (newSlice bytes))
  | .buildWindowed windowSize gapFill oracle bytes =>
    if windowSize = 0 then .refused .zeroWindow
    else if bytes.length > Config.maxOffset then .refused .storeTooLong
    else .next (s.built (newWindowed windowSize gapFill oracle bytes))
  | .buildEngine => .next { s with eng := Engine.reset, store := s.store.windowReset, parked := s.eng :: s.parked }
  | .selectEngine k =>
    match s.parked[k]? with
    | none => .refused .noSuchEngine
    | some e => .next { s with eng := e, parked := s.parked.set k s.eng }
  | .dropEngine k =>
    if k < s.parked.length then .next { s with parked := s.parked.eraseIdx k }
    else .refused .noSuchEngine
  | .buildStore windowSize =>
    match s.store with
    | .slice _ => .refused .windowedOnly
    | .windowed w =>
      if windowSize = 0 then .refused .zeroWindow
      else .next (s.switchTo w.stream (newOther windowSize) (s.asOther w :: s.others))
  | .selectStore k =>
    match s.store with
    | .slice _ => .refused .windowedOnly
    | .windowed w =>
      match s.others[k]? with
      | none => .refused .noSuchStore
      | some o => .next (s.switchTo w.stream o (s.others.set k (s.asOther w)))
  | .dropStore k =>
    if k < s.others.length then .next { s with others := s.others.eraseIdx k }
    else .refused .noSuchStore
  | .overlap => .fault .hostOverlap

end Sys2Proof.Machine
end

