-- ==== Sys2Proof/Machine/Step.lean ====
section
/-! DEFINITION. One step: the host's next action, a command if it writes CMD (10_state.md R25, 20_memory.md R84); idle if the host does nothing (60_exceptions.md R211, 70_reset_and_hazards.md R232). -/

namespace Sys2Proof.Machine

/-- One step of the machine. -/
def step (s : State) : Host.Outcome State Fault Refusal :=
  match s.host with
  | [] => .next s
  | a :: _ =>
    match commandOf a with
    | some w => exec (decode w) (s.taken.latchCmd w)
    | none => hostServe a s.taken

/-- `s` with a host that next writes the word to CMD (10_state.md R25; log entry 5): the next step runs it.
`nbits` is how many of the 32 bits the table gives; the bits above are 0. -/
def State.withFetchWord (s : State) (nbits w : Nat) : State :=
  { s with host := .write 0 (BitVec.ofNat 64 (w % 2 ^ min nbits 32)) :: s.host }

end Sys2Proof.Machine
end

