-- ==== Sys2Proof/Safety.lean ====
section
/-! DEFINITION. The terms the claims are stated in: the invariant of the machine, coherent and fault-free stores (20_memory.md R73), bits and fields of store content by the spec's bit addressing (00_scope.md R14, R15), and what a command may leave changed. -/

namespace Sys2Proof.Machine

/-! ### The invariant -/

/-- STATUS is a value a command or reset leaves: reserved bits 0, ERR = NONE when OK = 1; and a response that is no success
has RES0 = RES1 = 0, RES1 is always a bit offset (10_state.md R28 to R31, R41). -/
def Engine.responseLegal (e : Engine) : Bool :=
  (e.status == 1 || ([0, 2, 4, 6].contains e.status && e.res0 == 0 && e.res1 == 0)) && decide (e.res1.toNat ≤ 7)

/-- The cursor is in range (10_state.md R21, R22) and the response is a legal one. -/
def Engine.wf (e : Engine) : Bool := decide (e.cur.byte ≤ Config.maxOffset) && e.responseLegal

/-- Store content of a store of `n` bytes: canonical, nothing listed at or past the end, `n` within bounds (00_scope.md R10). -/
def Memory.fits (m : Memory) (n : Nat) : Bool := m.wf && m.below n && decide (n ≤ Config.maxOffset)

/-- A store as the rules leave it (00_scope.md R10; 10_state.md R37, R38). -/
def Store.wf : Store → Bool
  | .slice st => st.buf.fits st.capacity
  | .windowed w =>
    w.stream.bytes.fits w.stream.length && decide (1 ≤ w.windowSize) && decide (w.window.length ≤ w.windowSize) &&
      decide (w.bufferIndex + w.window.length ≤ Config.maxOffset)

/-- A store put aside is as the rules leave it: its window within its bounds, its engines well formed (10_state.md R37). -/
def OtherStore.wf (o : OtherStore) : Bool :=
  decide (1 ≤ o.windowSize) && decide (o.window.length ≤ o.windowSize) &&
    decide (o.bufferIndex + o.window.length ≤ Config.maxOffset) && o.eng.wf && o.parked.all Engine.wf

/-- The invariant of the machine: every engine and every store are well formed. -/
def State.inv (s : State) : Bool := s.eng.wf && s.store.wf && s.parked.all Engine.wf && s.others.all OtherStore.wf

/-! ### Coherent, fault-free stores (20_memory.md R73) -/

/-- A non-empty window shows the stream's current bytes (20_memory.md R73; log entry 10 on the empty window). -/
def Store.coherent : Store → Bool
  | .slice _ => true
  | .windowed w =>
    w.window == [] ||
      (decide (w.bufferIndex + w.window.length ≤ w.stream.length) &&
        w.window == w.stream.bytes.readBytes w.bufferIndex w.window.length)

/-- No stream call fails (20_memory.md R70, 93_implementation_defined.md U7); a `SLICE` store has none. -/
def Store.faultFree : Store → Bool
  | .slice _ => true
  | .windowed w => w.stream.oracle == .faultFree

/-- A store the engine sees as plain memory: a `SLICE` store, or a coherent and fault-free `WINDOWED` one (20_memory.md R73). -/
def Store.quiet (st : Store) : Bool := st.wf && st.coherent && st.faultFree

/-- The same kind, configuration, length and bytes: only the window and the failure oracle's position may differ. -/
def Store.sameContent : Store → Store → Prop
  | .slice a, .slice b => b = a
  | .windowed a, .windowed b =>
    b.windowSize = a.windowSize ∧ b.stream.length = a.stream.length ∧ b.stream.bytes = a.stream.bytes ∧
      b.stream.gapFill = a.stream.gapFill
  | _, _ => False

/-- The same kind, configuration and length: the bytes, the window and the oracle's position may differ. -/
def Store.sameShape : Store → Store → Prop
  | .slice a, .slice b => b.capacity = a.capacity
  | .windowed a, .windowed b =>
    b.windowSize = a.windowSize ∧ b.stream.length = a.stream.length ∧ b.stream.gapFill = a.stream.gapFill
  | _, _ => False

/-! ### Bits and fields of store content (00_scope.md R14, R15) -/

/-- The bit at bit address `p`: bit offset `p mod 8` of byte `p div 8`, bit offset 0 the most significant (00_scope.md R14). -/
def Memory.bitAt (m : Memory) (p : Nat) : Bool := (m.read (p / 8)).getLsbD (7 - p % 8)

/-- The field of `n` bits at bit address `p`, its first bit the most significant (00_scope.md R15). -/
def Memory.fieldAt (m : Memory) (p : Nat) : Nat → Nat
  | 0 => 0
  | n + 1 => 2 * Memory.fieldAt m p n + (m.bitAt (p + n)).toNat

/-- The bit address a cursor names (00_scope.md R14). -/
def Cursor.address (c : Cursor) : Nat := 8 * c.byte + c.bit

/-- The Position of a bit address (10_state.md R23). -/
def cursorAt (p : Nat) : Cursor := { byte := p / 8, bit := ⟨p % 8, Nat.mod_lt p (by decide)⟩ }

/-- `n` bits remain from a cursor on (41_bit_extract.md R138). -/
abbrev Store.hasBits (st : Store) (c : Cursor) (n : Nat) : Prop := n = 0 ∨ c.address + n ≤ 8 * st.length

/-- The code word of `z` zero bits, a 1 bit and `z` payload bits stands at bit address `p` (44_golomb_decode.md R170). -/
abbrev Memory.codeAt (m : Memory) (p z : Nat) : Prop := m.fieldAt p z = 0 ∧ m.bitAt (p + z) = true

/-- The content after the low `n` bits of `v` were written at bit address `p`: the field holds them, every other bit and
every byte the field does not touch is as before (45_bit_insert.md R180, R188). -/
def Memory.fieldWritten (m m' : Memory) (p n v : Nat) : Prop :=
  m'.fieldAt p n = v % 2 ^ n ∧
    (∀ q, q < p ∨ p + n ≤ q → m'.bitAt q = m.bitAt q) ∧
    ∀ o, o < p / 8 ∨ p / 8 + bytesTouched (p % 8) n ≤ o → m'.read o = m.read o

/-! ### Responses -/

/-- The state after a failure: only the response, and the store the command leaves (60_exceptions.md R201). -/
def State.failed (s : State) (st : Store) (e : ErrClass) : State :=
  { s with store := st, eng := { s.eng with status := statusFail e, res0 := 0, res1 := 0 } }

/-- The state after a success at a cursor with these results (00_scope.md R16). -/
def State.succeeded (s : State) (st : Store) (c : Cursor) (r0 r1 : Word) : State :=
  { s with store := st, eng := { s.eng with cur := c, status := 1, res0 := r0, res1 := r1 } }

/-- How many bits a command may store at its cursor; `none` for a command that stores nothing, whatever happens: every
command that is no write, and a write whose operands are rejected (45_bit_insert.md R181 to R185, 46_golomb_encode.md R190 to R192). -/
def writtenWidth (i : Instr) (s : State) : Option Nat :=
  match i with
  | .writeBits => if opCount s ≤ Config.maxFieldBits then some (opCount s) else none
  | .writeU8 _ => some 8
  | .writeU16 _ => some 16
  | .writeU32 _ => some 32
  | .writeU64 _ => some 64
  | .writeUe => if opValue s = 2 ^ 64 - 1 then none else some (codeWidth (opValue s + 1))
  | .writeSe => if opSigned s = -2 ^ 63 then none else some (codeWidth (codeOfSigned (opSigned s) + 1))
  | .remainingBits | .peekBits | .consumeBits | .consumeBytes | .readBits => none
  | .readU8 _ | .readU16 _ | .readU32 _ | .readU64 _ | .readUe | .readSe => none
  | .seek | .savePos | .restorePos | .resetPos | .illegal _ => none

end Sys2Proof.Machine
end

