-- ==== Sys2Proof/Certificates/Slice0/Obligations.lean ====
section
/-! DEFINITION. The statements for the provers. `State.succeeded` and `State.failed` (Safety) are whole next states: every field they do not name is as before, so a conclusion `exec i s = .next (s.succeeded …)` is also the command's frame. -/

open Sys2Proof Sys2Proof.Machine

/-! ### Encoding -/

/-- Every legal word of the opcode map decodes to its command (30_encoding.md R103, the 30 words written out from the map). -/
def Obligations.OpcodeMapWordsDecode : Prop :=
  decode 0x00000001 = .remainingBits ∧ decode 0x00000002 = .peekBits ∧ decode 0x00000003 = .consumeBits ∧
  decode 0x00000004 = .consumeBytes ∧ decode 0x00000005 = .readBits ∧
  decode 0x00000008 = .readU8 .big ∧ decode 0x00000108 = .readU8 .little ∧
  decode 0x00000009 = .readU16 .big ∧ decode 0x00000109 = .readU16 .little ∧
  decode 0x0000000A = .readU32 .big ∧ decode 0x0000010A = .readU32 .little ∧
  decode 0x0000000B = .readU64 .big ∧ decode 0x0000010B = .readU64 .little ∧
  decode 0x00000010 = .seek ∧ decode 0x00000011 = .savePos ∧ decode 0x00000012 = .restorePos ∧
  decode 0x00000013 = .resetPos ∧ decode 0x00000018 = .readUe ∧ decode 0x00000019 = .readSe ∧
  decode 0x00000020 = .writeBits ∧
  decode 0x00000028 = .writeU8 .big ∧ decode 0x00000128 = .writeU8 .little ∧
  decode 0x00000029 = .writeU16 .big ∧ decode 0x00000129 = .writeU16 .little ∧
  decode 0x0000002A = .writeU32 .big ∧ decode 0x0000012A = .writeU32 .little ∧
  decode 0x0000002B = .writeU64 .big ∧ decode 0x0000012B = .writeU64 .little ∧
  decode 0x00000030 = .writeUe ∧ decode 0x00000031 = .writeSe

/-- Decoding the encoding of a well-formed instruction gives it back, for every instruction (30_encoding.md R100 to R103, R106). -/
def Obligations.DecodeEncodeRoundTrip : Prop :=
  ∀ i : Instr, i.wellFormed = true → decode (encode i) = i

/-- Every word decodes to a well-formed instruction that encodes to that word: no word has two meanings and no bit is dropped
(30_encoding.md R106). -/
def Obligations.EveryWordHasOneMeaning : Prop :=
  ∀ w : CmdWord, (decode w).wellFormed = true ∧ encode (decode w) = w

/-- Decoding is total: a word is ILLEGAL if an RSV bit is set, OP is not in the map, or BO is set on an opcode without a byte
order, and else it is the map's command of its OP and BO (30_encoding.md R106). -/
def Obligations.DecodeFollowsTheRule : Prop :=
  ∀ w : CmdWord,
    (w >>> 9 ≠ 0 ∨ w.toNat % 256 ∉ legalOps ∨ (w.getLsbD 8 = true ∧ w.toNat % 256 ∉ orderedOps) → decode w = .illegal w) ∧
    (w >>> 9 = 0 → w.toNat % 256 ∈ legalOps → (w.getLsbD 8 = true → w.toNat % 256 ∈ orderedOps) →
      opcodeMap (w.toNat % 256) (if w.getLsbD 8 then .little else .big) = some (decode w) ∧ decode w ≠ .illegal w)

/-! ### The host's registers and the step -/

/-- A host write of `w` to CMD stores `w` and executes the command it names on OPA and OPB as they stand; a read of CMD returns
the last word written (10_state.md R25). -/
def Obligations.StepRunsDecodedCommand : Prop :=
  (∀ (s : State) (w : CmdWord) (rest : List HostAction), s.host = .write 0 (w.setWidth 64) :: rest →
    step s = exec (decode w) { s with host := rest, answer := .nothing, eng := { s.eng with cmd := w } }) ∧
  (∀ (s : State) (rest : List HostAction), s.host = .read 0 :: rest →
    step s = .next { s with host := rest, answer := .word (s.eng.cmd.setWidth 64) })

/-- With no host action pending the block keeps all its state (60_exceptions.md R211, 70_reset_and_hazards.md R232). -/
def Obligations.IdleBlockKeepsItsState : Prop :=
  ∀ s : State, s.host = [] → step s = .next s

/-- Reads return the six registers, and 0 for every other number; writes reach OPA and OPB only, apart from CMD
(10_state.md R24). -/
def Obligations.RegisterAccess : Prop :=
  (∀ (s : State) (n : Nat) (rest : List HostAction), s.host = .read n :: rest →
    step s = .next { s with
      host := rest
      answer := .word
        (if n = 0 then s.eng.cmd.setWidth 64 else if n = 1 then s.eng.status.setWidth 64 else if n = 2 then s.eng.opa
          else if n = 3 then s.eng.opb else if n = 4 then s.eng.res0 else if n = 5 then s.eng.res1 else 0) }) ∧
  (∀ (s : State) (n : Nat) (v : Word) (rest : List HostAction), n ≠ 0 → s.host = .write n v :: rest →
    step s = .next { s with
      host := rest
      answer := .nothing
      eng := { s.eng with
        opa := if n = 2 then v else s.eng.opa
        opb := if n = 3 then v else s.eng.opb } })

/-- Building an engine over the existing store gives the cursor (0, 0), registers 0 and an empty window at 0, as reset does, and leaves
the store's content alone (10_state.md R41; 70_reset_and_hazards.md R230, R231).  That the window of a store already in use is
emptied too is deduced from R41 (log entry 18). -/
def Obligations.BuildEngineResets : Prop :=
  State.reset.eng = { cur := { byte := 0, bit := 0 }, cmd := 0, status := 0, opa := 0, opb := 0, res0 := 0, res1 := 0 } ∧
  ∀ (s : State) (rest : List HostAction), s.host = .buildEngine :: rest →
    step s = .next { s with
      host := rest
      answer := .nothing
      eng := { cur := { byte := 0, bit := 0 }, cmd := 0, status := 0, opa := 0, opb := 0, res0 := 0, res1 := 0 }
      store := match s.store with
        | .slice st => .slice st
        | .windowed w => .windowed { w with bufferIndex := 0, window := [] }
      parked := s.eng :: s.parked }

/-- A WINDOWED store starts with an empty window at 0 over the owner's bytes; a SLICE store takes its bytes from the owner
(70_reset_and_hazards.md R231).  Where the model's own counter `overlong` starts (log entry 7) is left free. -/
def Obligations.BuiltStoresHoldTheOwnersBytes : Prop :=
  (∀ (s : State) (bytes : List Byte) (rest : List HostAction), s.host = .buildSlice bytes :: rest →
    bytes.length ≤ Config.maxOffset →
    ∃ t buf, step s = .next t ∧ t.store = .slice { capacity := bytes.length, buf := buf } ∧ t.eng = Engine.reset ∧
      ∀ o, buf.read o = (bytes[o]?).getD Config.unlistedByte) ∧
  (∀ (s : State) (windowSize : Nat) (fill : Byte) (orc : Oracle) (bytes : List Byte) (rest : List HostAction),
    s.host = .buildWindowed windowSize fill orc bytes :: rest → windowSize ≠ 0 → bytes.length ≤ Config.maxOffset →
    ∃ t buf k, step s = .next t ∧ t.eng = Engine.reset ∧
      t.store = .windowed
        { windowSize := windowSize
          bufferIndex := 0
          window := []
          stream := { length := bytes.length, bytes := buf, gapFill := fill, oracle := orc, overlong := k } } ∧
      ∀ o, buf.read o = (bytes[o]?).getD Config.unlistedByte)

/-- Further engines share the store and keep their own cursor and registers; the host drives one of them at a time
(60_exceptions.md R216). -/
def Obligations.EnginesShareTheStore : Prop :=
  ∀ (s : State) (k : Nat) (e : Engine) (rest : List HostAction), s.host = .selectEngine k :: rest → s.parked[k]? = some e →
    step s = .next { s with host := rest, answer := .nothing, eng := e, parked := s.parked.set k s.eng }

/-- Two WINDOWED stores over one stream have one stream and each its own window and engines: a further store starts with an empty
window at 0, and the store in use is put aside with its window as it is (60_exceptions.md R216, 70_reset_and_hazards.md R231). -/
def Obligations.StoresShareTheStream : Prop :=
  (∀ (s : State) (w : WindowedStore) (n : Nat) (rest : List HostAction), s.store = .windowed w → s.host = .buildStore n :: rest →
    n ≠ 0 →
    step s = .next { s with
      host := rest
      answer := .nothing
      eng := Engine.reset
      parked := []
      store := .windowed { windowSize := n, bufferIndex := 0, window := [], stream := w.stream }
      others := { windowSize := w.windowSize, bufferIndex := w.bufferIndex, window := w.window, eng := s.eng, parked := s.parked }
        :: s.others }) ∧
  (∀ (s : State) (w : WindowedStore) (k : Nat) (o : OtherStore) (rest : List HostAction), s.store = .windowed w →
    s.host = .selectStore k :: rest → s.others[k]? = some o →
    ∃ t, step s = .next t ∧ t.eng = o.eng ∧ t.parked = o.parked ∧ t.host = rest ∧
      t.store = .windowed { windowSize := o.windowSize, bufferIndex := o.bufferIndex, window := o.window, stream := w.stream } ∧
      t.others[k]? =
        some { windowSize := w.windowSize, bufferIndex := w.bufferIndex, window := w.window, eng := s.eng, parked := s.parked } ∧
      ∀ j, j ≠ k → t.others[j]? = s.others[j]?)

/-! ### The invariant -/

/-- The state after reset meets the invariant. -/
def Obligations.ResetMeetsInvariant : Prop := State.reset.inv = true

/-- Every step keeps the invariant: cursors in range (10_state.md R22), STATUS and results a legal response (R28 to R31),
store content canonical and inside the store, the window within its bounds (R37). -/
def Obligations.StepKeepsInvariant : Prop :=
  ∀ s t : State, s.inv = true → step s = .next t → t.inv = true

/-! ### Every command -/

/-- Every command, legal or illegal, ends with a response: success, or one of the three failures with results 0 and the entry
cursor; RES1 is 0 after every command but SAVE_POS (10_state.md R29, R32; 60_exceptions.md R200, R201). -/
def Obligations.EveryCommandResponds : Prop :=
  ∀ (i : Instr) (s : State), ∃ t, exec i s = .next t ∧
    (t.eng.status = 1 ∨
      ((t.eng.status = 2 ∨ t.eng.status = 4 ∨ t.eng.status = 6) ∧ t.eng.res0 = 0 ∧ t.eng.res1 = 0 ∧ t.eng.cur = s.eng.cur)) ∧
    (i ≠ .savePos → t.eng.res1 = 0)

/-- No command writes CMD, OPA or OPB, a parked engine, another store, the host's pending actions or its last answer (10_state.md R24, R26, R27). -/
def Obligations.CommandsKeepOperands : Prop :=
  ∀ (i : Instr) (s t : State), exec i s = .next t →
    t.eng.cmd = s.eng.cmd ∧ t.eng.opa = s.eng.opa ∧ t.eng.opb = s.eng.opb ∧ t.parked = s.parked ∧ t.others = s.others ∧
      t.host = s.host ∧ t.answer = s.answer

/-- On any store, a command that is no write, and a write whose operands are rejected, leaves the store's length, every byte and
the configuration as they are (20_memory.md R81; 41_bit_extract.md R139; 43_cursor_control.md R164; 44_golomb_decode.md R174). -/
def Obligations.NonWritersKeepContent : Prop :=
  ∀ (i : Instr) (s t : State), writtenWidth i s = none → exec i s = .next t → s.store.sameContent t.store

/-- On any store, stale or failing included, a write command leaves every byte of the store that its field does not touch
as it is, however it ends (45_bit_insert.md R188, 20_memory.md R69). -/
def Obligations.WritersKeepOtherBytes : Prop :=
  ∀ (i : Instr) (s t : State) (n x : Nat), s.inv = true → writtenWidth i s = some n → exec i s = .next t →
    x < s.store.length → x < s.eng.cur.byte ∨ s.eng.cur.byte + bytesTouched s.eng.cur.bit n ≤ x →
    t.store.content.read x = s.store.content.read x

/-- A SLICE store is left as it was by every failing command (60_exceptions.md R201). -/
def Obligations.FailuresKeepSliceStores : Prop :=
  ∀ (i : Instr) (s t : State) (st : SliceStore), s.inv = true → s.store = .slice st → exec i s = .next t →
    t.eng.status ≠ 1 → t.store = s.store

/-- A failed lookup of a WINDOWED store fails the command with BACKING_STORE_FAILURE, at the entry cursor and with an empty window:
the first byte is not in the window and its stream read fails (41_bit_extract.md R137, 60_exceptions.md R202, 20_memory.md R64). -/
def Obligations.FailedLookupFailsTheCommand : Prop :=
  ∀ (i : Instr) (bo : ByteOrder) (s : State) (w : WindowedStore) (d : Config.Draw),
    i ∈ [.peekBits, .consumeBits, .consumeBytes, .readBits, .readU8 bo, .readU16 bo, .readU32 bo, .readU64 bo, .readUe, .readSe,
      .writeBits, .writeU8 bo, .writeU16 bo, .writeU32 bo, .writeU64 bo, .writeUe, .writeSe] →
    1 ≤ opCount s → opCount s ≤ 64 → opValue s ≠ 2 ^ 64 - 1 → opSigned s ≠ -2 ^ 63 →
    s.store = .windowed w → w.hit s.eng.cur.byte = none → w.stream.draw.1 = some d →
    exec i s = .next (s.failed (.windowed { w with stream := w.stream.draw.2, window := [] }) .backingStoreFailure)

/-! ### Bit extraction (41_bit_extract.md) -/

/-- REMAINING_BITS answers 1 or 0, always OK, and keeps the cursor (41_bit_extract.md R131). -/
def Obligations.RemainingBitsResponds : Prop :=
  decode 0x00000001 = .remainingBits ∧
  ∀ s : State, s.inv = true →
    (s.eng.opa = 0 → exec .remainingBits s = .next (s.succeeded s.store s.eng.cur 1 0)) ∧
    (s.store.quiet = true → s.store.hasBits s.eng.cur s.eng.opa.toNat →
      ∃ st, st.quiet = true ∧ s.store.sameContent st ∧ exec .remainingBits s = .next (s.succeeded st s.eng.cur 1 0)) ∧
    (s.store.quiet = true → ¬ s.store.hasBits s.eng.cur s.eng.opa.toNat →
      ∃ st, st.quiet = true ∧ s.store.sameContent st ∧ exec .remainingBits s = .next (s.succeeded st s.eng.cur 0 0)) ∧
    (∀ r st, walk s.eng.opa.toNat s.eng.cur s.store = (.error r, st) →
      exec .remainingBits s = .next (s.succeeded st s.eng.cur 0 0)) ∧
    (∀ bs st, walk s.eng.opa.toNat s.eng.cur s.store = (.ok bs, st) →
      exec .remainingBits s = .next (s.succeeded st s.eng.cur 1 0))

/-- PEEK_BITS returns the next `n ≤ 64` bits, MSB-first, and keeps the cursor; it fails by the width, by too few bits or by a
failed lookup (41_bit_extract.md R132). -/
def Obligations.PeekBitsResponds : Prop :=
  decode 0x00000002 = .peekBits ∧
  ∀ s : State, s.inv = true →
    (s.eng.opa.toNat > 64 → exec .peekBits s = .next (s.failed s.store .invalidArgument)) ∧
    (s.eng.opa = 0 → exec .peekBits s = .next (s.succeeded s.store s.eng.cur 0 0)) ∧
    (s.eng.opa.toNat ≤ 64 → s.store.quiet = true → s.store.hasBits s.eng.cur s.eng.opa.toNat →
      ∃ st, st.quiet = true ∧ s.store.sameContent st ∧ exec .peekBits s = .next
        (s.succeeded st s.eng.cur (BitVec.ofNat 64 (s.store.content.fieldAt s.eng.cur.address s.eng.opa.toNat)) 0)) ∧
    (s.eng.opa.toNat ≤ 64 → s.store.quiet = true → ¬ s.store.hasBits s.eng.cur s.eng.opa.toNat →
      ∃ st, st.quiet = true ∧ s.store.sameContent st ∧ exec .peekBits s = .next (s.failed st .insufficientData)) ∧
    (∀ r st, s.eng.opa.toNat ≤ 64 → walk s.eng.opa.toNat s.eng.cur s.store = (.error r, st) →
      exec .peekBits s = .next (s.failed st (if r = .oob then .insufficientData else .backingStoreFailure))) ∧
    (∀ bs st, s.eng.opa.toNat ≤ 64 → walk s.eng.opa.toNat s.eng.cur s.store = (.ok bs, st) →
      exec .peekBits s = .next (s.succeeded st s.eng.cur
        (BitVec.ofNat 64 (field bs s.eng.cur.bit s.eng.opa.toNat)) 0))

/-- CONSUME_BITS advances by `n` bits, any `n`, if they remain (41_bit_extract.md R133). -/
def Obligations.ConsumeBitsResponds : Prop :=
  decode 0x00000003 = .consumeBits ∧
  ∀ s : State, s.inv = true →
    (s.eng.opa = 0 → exec .consumeBits s = .next (s.succeeded s.store s.eng.cur 0 0)) ∧
    (s.store.quiet = true → s.store.hasBits s.eng.cur s.eng.opa.toNat →
      ∃ st, st.quiet = true ∧ s.store.sameContent st ∧
        exec .consumeBits s = .next (s.succeeded st (cursorAt (s.eng.cur.address + s.eng.opa.toNat)) 0 0)) ∧
    (s.store.quiet = true → ¬ s.store.hasBits s.eng.cur s.eng.opa.toNat →
      ∃ st, st.quiet = true ∧ s.store.sameContent st ∧ exec .consumeBits s = .next (s.failed st .insufficientData)) ∧
    (∀ r st, walk s.eng.opa.toNat s.eng.cur s.store = (.error r, st) →
      exec .consumeBits s = .next (s.failed st (if r = .oob then .insufficientData else .backingStoreFailure))) ∧
    (∀ bs st, walk s.eng.opa.toNat s.eng.cur s.store = (.ok bs, st) →
      exec .consumeBits s = .next (s.succeeded st (cursorAt (s.eng.cur.address + s.eng.opa.toNat)) 0 0))

/-- CONSUME_BYTES advances by `8n` bits, exactly, if `8n` bits remain (41_bit_extract.md R134, 90_conflicts.md C5). -/
def Obligations.ConsumeBytesResponds : Prop :=
  decode 0x00000004 = .consumeBytes ∧
  ∀ s : State, s.inv = true →
    (s.eng.opa = 0 → exec .consumeBytes s = .next (s.succeeded s.store s.eng.cur 0 0)) ∧
    (s.store.quiet = true → s.store.hasBits s.eng.cur (8 * s.eng.opa.toNat) →
      ∃ st, st.quiet = true ∧ s.store.sameContent st ∧ exec .consumeBytes s = .next
        (s.succeeded st { byte := s.eng.cur.byte + s.eng.opa.toNat, bit := s.eng.cur.bit } 0 0)) ∧
    (s.store.quiet = true → ¬ s.store.hasBits s.eng.cur (8 * s.eng.opa.toNat) →
      ∃ st, st.quiet = true ∧ s.store.sameContent st ∧ exec .consumeBytes s = .next (s.failed st .insufficientData)) ∧
    (∀ r st, walk (8 * s.eng.opa.toNat) s.eng.cur s.store = (.error r, st) →
      exec .consumeBytes s = .next (s.failed st (if r = .oob then .insufficientData else .backingStoreFailure))) ∧
    (∀ bs st, walk (8 * s.eng.opa.toNat) s.eng.cur s.store = (.ok bs, st) →
      exec .consumeBytes s = .next (s.succeeded st { byte := s.eng.cur.byte + s.eng.opa.toNat, bit := s.eng.cur.bit } 0 0))

/-- READ_BITS returns the next `n ≤ 64` bits, MSB-first, and advances past them; its failures are those of PEEK_BITS
(41_bit_extract.md R135). -/
def Obligations.ReadBitsResponds : Prop :=
  decode 0x00000005 = .readBits ∧
  ∀ s : State, s.inv = true →
    (s.eng.opa.toNat > 64 → exec .readBits s = .next (s.failed s.store .invalidArgument)) ∧
    (s.eng.opa = 0 → exec .readBits s = .next (s.succeeded s.store s.eng.cur 0 0)) ∧
    (s.eng.opa.toNat ≤ 64 → s.store.quiet = true → s.store.hasBits s.eng.cur s.eng.opa.toNat →
      ∃ st, st.quiet = true ∧ s.store.sameContent st ∧ exec .readBits s = .next
        (s.succeeded st (cursorAt (s.eng.cur.address + s.eng.opa.toNat))
          (BitVec.ofNat 64 (s.store.content.fieldAt s.eng.cur.address s.eng.opa.toNat)) 0)) ∧
    (s.eng.opa.toNat ≤ 64 → s.store.quiet = true → ¬ s.store.hasBits s.eng.cur s.eng.opa.toNat →
      ∃ st, st.quiet = true ∧ s.store.sameContent st ∧ exec .readBits s = .next (s.failed st .insufficientData)) ∧
    (∀ r st, s.eng.opa.toNat ≤ 64 → walk s.eng.opa.toNat s.eng.cur s.store = (.error r, st) →
      exec .readBits s = .next (s.failed st (if r = .oob then .insufficientData else .backingStoreFailure))) ∧
    (∀ bs st, s.eng.opa.toNat ≤ 64 → walk s.eng.opa.toNat s.eng.cur s.store = (.ok bs, st) →
      exec .readBits s = .next (s.succeeded st (cursorAt (s.eng.cur.address + s.eng.opa.toNat))
        (BitVec.ofNat 64 (field bs s.eng.cur.bit s.eng.opa.toNat)) 0))

/-- On any store, REMAINING_BITS `n` answers 1 exactly when CONSUME_BITS `n` in the same state succeeds (41_bit_extract.md R138). -/
def Obligations.RemainingAgreesWithConsume : Prop :=
  ∀ s t u : State, exec .remainingBits s = .next t → exec .consumeBits s = .next u →
    (t.eng.res0 = 1 ↔ u.eng.status = 1)

/-- On a quiet store, REMAINING_BITS `n` answers 1 exactly when the CONSUME_BITS `n` after it succeeds (41_bit_extract.md R138). -/
def Obligations.RemainingPredictsConsume : Prop :=
  ∀ s t u : State, s.inv = true → s.store.quiet = true → exec .remainingBits s = .next t → exec .consumeBits t = .next u →
    (t.eng.res0 = 1 ↔ u.eng.status = 1)

/-- On any store, READ_BITS `n ≤ 64` gives the response PEEK_BITS gives in the same state, and on success leaves the cursor where
CONSUME_BITS does (41_bit_extract.md R135). -/
def Obligations.ReadIsPeekThenConsume : Prop :=
  ∀ s p c r : State, s.eng.opa.toNat ≤ 64 →
    exec .peekBits s = .next p → exec .consumeBits s = .next c → exec .readBits s = .next r →
    r.eng.status = p.eng.status ∧ r.eng.res0 = p.eng.res0 ∧ r.eng.res1 = p.eng.res1 ∧ r.store = p.store ∧ r.eng.cur = c.eng.cur

/-- No command of bit extraction writes the store; REMAINING_BITS and PEEK_BITS do not write the cursor; the others write it only
on success (41_bit_extract.md R139). -/
def Obligations.BitExtractionEffects : Prop :=
  ∀ (i : Instr) (s t : State), i ∈ [.remainingBits, .peekBits, .consumeBits, .consumeBytes, .readBits] → exec i s = .next t →
    s.store.sameContent t.store ∧ (i ∈ [.remainingBits, .peekBits] → t.eng.cur = s.eng.cur) ∧
      (t.eng.status ≠ 1 → t.eng.cur = s.eng.cur)

/-! ### Fixed-width integers (42_fixed_width_unpack.md) -/

/-- READ_U8, READ_U16, READ_U32 and READ_U64: group `j` of 8 bits from the cursor on is byte `k - 1 - j` of the result for
big-endian and byte `j` for little-endian; too few bits or a failed lookup fail (42_fixed_width_unpack.md R150 to R154). -/
def Obligations.ReadUintResponds : Prop :=
  ∀ (i : Instr) (k : Nat) (op : CmdWord) (bo : ByteOrder) (s : State),
    (i, k, op) ∈ [(Instr.readU8 bo, 1, 0x08), (.readU16 bo, 2, 0x09), (.readU32 bo, 4, 0x0A), (.readU64 bo, 8, 0x0B)] →
    s.inv = true →
    decode (if bo = .big then op else op + 0x100) = i ∧
    (s.store.quiet = true → s.store.hasBits s.eng.cur (8 * k) →
      ∃ st v, st.quiet = true ∧ s.store.sameContent st ∧ v < 2 ^ (8 * k) ∧
        (∀ j < k, s.store.content.fieldAt (s.eng.cur.address + 8 * j) 8 =
          v / 2 ^ (8 * (if bo = .big then k - 1 - j else j)) % 2 ^ 8) ∧
        exec i s = .next (s.succeeded st (cursorAt (s.eng.cur.address + 8 * k)) (BitVec.ofNat 64 v) 0)) ∧
    (s.store.quiet = true → ¬ s.store.hasBits s.eng.cur (8 * k) →
      ∃ st, st.quiet = true ∧ s.store.sameContent st ∧ exec i s = .next (s.failed st .insufficientData)) ∧
    (∀ r st, walk (8 * k) s.eng.cur s.store = (.error r, st) →
      exec i s = .next (s.failed st (if r = .oob then .insufficientData else .backingStoreFailure))) ∧
    (∀ bs st, walk (8 * k) s.eng.cur s.store = (.ok bs, st) →
      exec i s = .next (s.succeeded st (cursorAt (s.eng.cur.address + 8 * k))
        (BitVec.ofNat 64 (if bo = .big then field bs s.eng.cur.bit (8 * k) else byteSwap k (field bs s.eng.cur.bit (8 * k)))) 0))

/-- On any store, the two byte orders of one READ_Uxx in the same state differ only in RES0, and on success RES0 of one is the
byte-reversal of the other's (42_fixed_width_unpack.md R155). -/
def Obligations.ByteOrderChangesOnlyTheValue : Prop :=
  ∀ (i j : Instr) (k : Nat) (s t u : State),
    (i, j, k) ∈ [(Instr.readU8 .big, Instr.readU8 .little, 1), (.readU16 .big, .readU16 .little, 2),
      (.readU32 .big, .readU32 .little, 4), (.readU64 .big, .readU64 .little, 8)] →
    exec i s = .next t → exec j s = .next u →
    u = { t with eng := { t.eng with res0 := u.eng.res0 } } ∧
      u.eng.res0.toNat = byteSwap k t.eng.res0.toNat ∧ t.eng.res0.toNat = byteSwap k u.eng.res0.toNat

/-! ### Cursor control (43_cursor_control.md) -/

/-- SEEK: bit offset, then sign, then the byte's existence; on success the cursor is the position (43_cursor_control.md R160). -/
def Obligations.SeekResponds : Prop :=
  decode 0x00000010 = .seek ∧
  ∀ s : State, s.inv = true →
    (s.eng.opb.toNat > 7 → exec .seek s = .next (s.failed s.store .invalidArgument)) ∧
    (s.eng.opb.toNat ≤ 7 → s.eng.opa.toInt < 0 → exec .seek s = .next (s.failed s.store .invalidArgument)) ∧
    (s.eng.opb.toNat ≤ 7 → 0 ≤ s.eng.opa.toInt → s.store.quiet = true → s.eng.opa.toNat < s.store.length →
      ∃ st, st.quiet = true ∧ s.store.sameContent st ∧
        exec .seek s = .next (s.succeeded st (cursorAt (8 * s.eng.opa.toNat + s.eng.opb.toNat)) 0 0)) ∧
    (s.eng.opb.toNat ≤ 7 → 0 ≤ s.eng.opa.toInt → s.store.quiet = true → s.store.length ≤ s.eng.opa.toNat →
      ∃ st, st.quiet = true ∧ s.store.sameContent st ∧ exec .seek s = .next (s.failed st .insufficientData)) ∧
    (∀ r st, s.eng.opb.toNat ≤ 7 → 0 ≤ s.eng.opa.toInt → s.store.lookup s.eng.opa.toNat = (.error r, st) →
      exec .seek s = .next (s.failed st (if r = .oob then .insufficientData else .backingStoreFailure))) ∧
    (∀ b st, s.eng.opb.toNat ≤ 7 → 0 ≤ s.eng.opa.toInt → s.store.lookup s.eng.opa.toNat = (.ok b, st) →
      exec .seek s = .next (s.succeeded st (cursorAt (8 * s.eng.opa.toNat + s.eng.opb.toNat)) 0 0))

/-- SAVE_POS returns the cursor and touches nothing else (43_cursor_control.md R161). -/
def Obligations.SavePosResponds : Prop :=
  decode 0x00000011 = .savePos ∧
  ∀ s : State, s.inv = true → ∃ t, exec .savePos s = .next t ∧
    t = s.succeeded s.store s.eng.cur t.eng.res0 t.eng.res1 ∧
    t.eng.res0.toNat = s.eng.cur.byte ∧ t.eng.res1.toNat = s.eng.cur.bit.val

/-- RESTORE_POS: range checks, no lookup; on success the cursor is the position, past the end too (43_cursor_control.md R162). -/
def Obligations.RestorePosResponds : Prop :=
  decode 0x00000012 = .restorePos ∧
  ∀ s : State,
    (s.eng.opb.toNat > 7 ∨ s.eng.opa.toInt < 0 → exec .restorePos s = .next (s.failed s.store .invalidArgument)) ∧
    (s.eng.opb.toNat ≤ 7 → 0 ≤ s.eng.opa.toInt →
      exec .restorePos s = .next (s.succeeded s.store (cursorAt (8 * s.eng.opa.toNat + s.eng.opb.toNat)) 0 0))

/-- RESET_POS always succeeds, sets the cursor to (0, 0) and touches nothing else (43_cursor_control.md R163). -/
def Obligations.ResetPosResponds : Prop :=
  decode 0x00000013 = .resetPos ∧
  ∀ s : State, exec .resetPos s = .next (s.succeeded s.store { byte := 0, bit := 0 } 0 0)

/-- RESTORE_POS of what SAVE_POS returned brings back the saved cursor, from any state in between (43_cursor_control.md R164). -/
def Obligations.RestoreBringsBackTheSavedCursor : Prop :=
  ∀ s t m : State, s.inv = true → exec .savePos s = .next t → m.eng.opa = t.eng.res0 → m.eng.opb = t.eng.res1 →
    exec .restorePos m = .next (m.succeeded m.store s.eng.cur 0 0)

/-! ### Exponential-Golomb decode (44_golomb_decode.md) -/

/-- READ_UE decodes a whole code word at the cursor: `z ≤ 63` zero bits, a 1 bit, `z` payload bits; the value is the last
`z + 1` bits less 1, and exactly `2z + 1` bits are consumed (44_golomb_decode.md R170, R171, R174). -/
def Obligations.ReadUeDecodesCodeWords : Prop :=
  ∀ (s : State) (z : Nat), s.inv = true → s.store.quiet = true → z ≤ 63 → s.store.content.codeAt s.eng.cur.address z →
    s.eng.cur.address + (2 * z + 1) ≤ 8 * s.store.length →
    ∃ st, st.quiet = true ∧ s.store.sameContent st ∧ exec .readUe s = .next
      (s.succeeded st (cursorAt (s.eng.cur.address + (2 * z + 1)))
        (BitVec.ofNat 64 (s.store.content.fieldAt (s.eng.cur.address + z) (z + 1) - 1)) 0)

/-- READ_UE and READ_SE fail with INVALID_ARGUMENT at 64 zero bits (also if a 1 bit follows), and with INSUFFICIENT_DATA if the
data ends before the 1 bit or before the payload does; the entry cursor is kept (44_golomb_decode.md R171, R172). -/
def Obligations.CodeWordFailures : Prop :=
  ∀ (i : Instr) (s : State) (z : Nat), i ∈ [.readUe, .readSe] → s.inv = true → s.store.quiet = true →
    (s.store.content.fieldAt s.eng.cur.address 64 = 0 → s.eng.cur.address + 64 ≤ 8 * s.store.length →
      ∃ st, st.quiet = true ∧ s.store.sameContent st ∧ exec i s = .next (s.failed st .invalidArgument)) ∧
    (z ≤ 63 → s.store.content.fieldAt s.eng.cur.address z = 0 → s.eng.cur.address + z = 8 * s.store.length →
      ∃ st, st.quiet = true ∧ s.store.sameContent st ∧ exec i s = .next (s.failed st .insufficientData)) ∧
    (8 * s.store.length ≤ s.eng.cur.address →
      ∃ st, st.quiet = true ∧ s.store.sameContent st ∧ exec i s = .next (s.failed st .insufficientData)) ∧
    (z ≤ 63 → s.store.content.codeAt s.eng.cur.address z → s.eng.cur.address + z < 8 * s.store.length →
      8 * s.store.length < s.eng.cur.address + (2 * z + 1) →
      ∃ st, st.quiet = true ∧ s.store.sameContent st ∧ exec i s = .next (s.failed st .insufficientData))

/-- READ_SE decodes a whole code word at the cursor to its signed value, two's complement (44_golomb_decode.md R172, R173). -/
def Obligations.ReadSeDecodesCodeWords : Prop :=
  ∀ (s : State) (z k : Nat), s.inv = true → s.store.quiet = true → z ≤ 63 → s.store.content.codeAt s.eng.cur.address z →
    s.eng.cur.address + (2 * z + 1) ≤ 8 * s.store.length → k = s.store.content.fieldAt (s.eng.cur.address + z) (z + 1) - 1 →
    ∃ st v, st.quiet = true ∧ s.store.sameContent st ∧
      exec .readSe s = .next (s.succeeded st (cursorAt (s.eng.cur.address + (2 * z + 1))) v 0) ∧
      v.toInt = if k % 2 = 0 then -((k / 2 : Nat) : Int) else (((k + 1) / 2 : Nat) : Int)

/-- READ_UE on any store, stale or failing included: `z` one-bit walks that meet zero bits, then a walk that fails, or that meets the
terminating 1-bit and is followed by the walk of `z + 1` bits, or that meets the 64th zero bit (44_golomb_decode.md R171).
`sts i` is the store after `i` one-bit walks. -/
def Obligations.ReadUeOnAnyStore : Prop :=
  decode 0x00000018 = .readUe ∧
  ∀ (s : State) (z : Nat) (sts : Nat → Store), z ≤ 63 → sts 0 = s.store →
    (∀ i < z, ∃ bs, walk 1 (cursorAt (s.eng.cur.address + i)) (sts i) = (.ok bs, sts (i + 1)) ∧
      field bs (cursorAt (s.eng.cur.address + i)).bit 1 = 0) →
    (∀ r st, walk 1 (cursorAt (s.eng.cur.address + z)) (sts z) = (.error r, st) →
      exec .readUe s = .next (s.failed st (if r = .oob then .insufficientData else .backingStoreFailure))) ∧
    (∀ bs st, walk 1 (cursorAt (s.eng.cur.address + z)) (sts z) = (.ok bs, st) →
      field bs (cursorAt (s.eng.cur.address + z)).bit 1 = 0 → z = 63 →
      exec .readUe s = .next (s.failed st .invalidArgument)) ∧
    (∀ bs st r st', walk 1 (cursorAt (s.eng.cur.address + z)) (sts z) = (.ok bs, st) →
      field bs (cursorAt (s.eng.cur.address + z)).bit 1 = 1 →
      walk (z + 1) (cursorAt (s.eng.cur.address + z)) st = (.error r, st') →
      exec .readUe s = .next (s.failed st' (if r = .oob then .insufficientData else .backingStoreFailure))) ∧
    (∀ bs st bs' st', walk 1 (cursorAt (s.eng.cur.address + z)) (sts z) = (.ok bs, st) →
      field bs (cursorAt (s.eng.cur.address + z)).bit 1 = 1 →
      walk (z + 1) (cursorAt (s.eng.cur.address + z)) st = (.ok bs', st') →
      exec .readUe s = .next (s.succeeded st' (cursorAt (s.eng.cur.address + (2 * z + 1)))
        (BitVec.ofNat 64 (field bs' (cursorAt (s.eng.cur.address + z)).bit (z + 1) - 1)) 0))

/-- On any store, READ_SE does what READ_UE does in the same state, but for RES0, which is the signed reading of READ_UE's RES0
(44_golomb_decode.md R172). -/
def Obligations.ReadSeIsSignedReadUe : Prop :=
  decode 0x00000019 = .readSe ∧
  ∀ s t u : State, s.inv = true → exec .readUe s = .next t → exec .readSe s = .next u →
    u = { t with eng := { t.eng with res0 := u.eng.res0 } } ∧
      u.eng.res0.toInt = if t.eng.res0.toNat % 2 = 0 then -((t.eng.res0.toNat / 2 : Nat) : Int)
        else (((t.eng.res0.toNat + 1) / 2 : Nat) : Int)

/-- A successful READ_UE or READ_SE consumes exactly `2z + 1` bits, `z` the number of leading zero bits; a failed one consumes
none; neither writes the store (44_golomb_decode.md R174). -/
def Obligations.CodeReadsConsumeTheCodeWord : Prop :=
  ∀ (i : Instr) (s t : State), i ∈ [.readUe, .readSe] → s.inv = true → s.store.quiet = true → exec i s = .next t →
    s.store.sameContent t.store ∧ (t.eng.status ≠ 1 → t.eng.cur = s.eng.cur) ∧
      (t.eng.status = 1 → ∃ z, s.store.content.codeAt s.eng.cur.address z ∧ t.eng.cur = cursorAt (s.eng.cur.address + (2 * z + 1)))

/-! ### Bit insertion (45_bit_insert.md) -/

/-- WRITE_BITS stores the low `n ≤ 64` bits of OPB at the cursor, keeps every other bit, and advances; it fails by the width, by
too little room or by a failed lookup, and then writes nothing (45_bit_insert.md R180, R181). -/
def Obligations.WriteBitsResponds : Prop :=
  decode 0x00000020 = .writeBits ∧
  ∀ s : State, s.inv = true →
    (s.eng.opa.toNat > 64 → exec .writeBits s = .next (s.failed s.store .invalidArgument)) ∧
    (s.eng.opa = 0 → exec .writeBits s = .next (s.succeeded s.store s.eng.cur 0 0)) ∧
    (1 ≤ s.eng.opa.toNat → s.eng.opa.toNat ≤ 64 → s.store.quiet = true → s.store.hasBits s.eng.cur s.eng.opa.toNat →
      ∃ st, st.quiet = true ∧ s.store.sameShape st ∧
        s.store.content.fieldWritten st.content s.eng.cur.address s.eng.opa.toNat s.eng.opb.toNat ∧
        exec .writeBits s = .next (s.succeeded st (cursorAt (s.eng.cur.address + s.eng.opa.toNat)) 0 0)) ∧
    (s.eng.opa.toNat ≤ 64 → s.store.quiet = true → ¬ s.store.hasBits s.eng.cur s.eng.opa.toNat →
      ∃ st, st.quiet = true ∧ s.store.sameContent st ∧ exec .writeBits s = .next (s.failed st .insufficientData)) ∧
    (∀ r st, s.eng.opa.toNat ≤ 64 → walk s.eng.opa.toNat s.eng.cur s.store = (.error r, st) →
      exec .writeBits s = .next (s.failed st (if r = .oob then .insufficientData else .backingStoreFailure))) ∧
    (∀ bs st q st', 1 ≤ s.eng.opa.toNat → s.eng.opa.toNat ≤ 64 → walk s.eng.opa.toNat s.eng.cur s.store = (.ok bs, st) →
      st.put (mergeField bs s.eng.cur.bit s.eng.opa.toNat s.eng.opb.toNat) s.eng.cur.byte = (q, st') →
      exec .writeBits s = .next (if q = .stored then s.succeeded st' (cursorAt (s.eng.cur.address + s.eng.opa.toNat)) 0 0
        else s.failed st' .backingStoreFailure))

/-- WRITE_U8, WRITE_U16, WRITE_U32 and WRITE_U64: group `j` of 8 bits from the cursor on becomes byte `k - 1 - j` of OPB for
big-endian and byte `j` for little-endian, every other bit is kept (45_bit_insert.md R182 to R186, R188). -/
def Obligations.WriteUintResponds : Prop :=
  ∀ (i : Instr) (k : Nat) (op : CmdWord) (bo : ByteOrder) (s : State),
    (i, k, op) ∈ [(Instr.writeU8 bo, 1, 0x28), (.writeU16 bo, 2, 0x29), (.writeU32 bo, 4, 0x2A), (.writeU64 bo, 8, 0x2B)] →
    s.inv = true →
    decode (if bo = .big then op else op + 0x100) = i ∧
    (s.store.quiet = true → s.store.hasBits s.eng.cur (8 * k) →
      ∃ st v, st.quiet = true ∧ s.store.sameShape st ∧
        s.store.content.fieldWritten st.content s.eng.cur.address (8 * k) v ∧
        (∀ j < k, st.content.fieldAt (s.eng.cur.address + 8 * j) 8 =
          s.eng.opb.toNat / 2 ^ (8 * (if bo = .big then k - 1 - j else j)) % 2 ^ 8) ∧
        exec i s = .next (s.succeeded st (cursorAt (s.eng.cur.address + 8 * k)) 0 0)) ∧
    (s.store.quiet = true → ¬ s.store.hasBits s.eng.cur (8 * k) →
      ∃ st, st.quiet = true ∧ s.store.sameContent st ∧ exec i s = .next (s.failed st .insufficientData)) ∧
    (∀ r st, walk (8 * k) s.eng.cur s.store = (.error r, st) →
      exec i s = .next (s.failed st (if r = .oob then .insufficientData else .backingStoreFailure))) ∧
    (∀ bs st q st', walk (8 * k) s.eng.cur s.store = (.ok bs, st) →
      st.put (mergeField bs s.eng.cur.bit (8 * k) (if bo = .big then s.eng.opb.toNat % 2 ^ (8 * k)
        else byteSwap k (s.eng.opb.toNat % 2 ^ (8 * k)))) s.eng.cur.byte = (q, st') →
      exec i s = .next (if q = .stored then s.succeeded st' (cursorAt (s.eng.cur.address + 8 * k)) 0 0
        else s.failed st' .backingStoreFailure))

/-- A write whose `Put` fails reports BACKING_STORE_FAILURE at the entry cursor and leaves an empty window
(45_bit_insert.md R180, 20_memory.md R69, 70_reset_and_hazards.md R239). -/
def Obligations.FailedPutFailsTheWrite : Prop :=
  ∀ (i : Instr) (s t : State) (n : Nat) (bs : List Byte) (w : WindowedStore) (d : Config.Draw),
    writtenWidth i s = some n → n ≠ 0 → walk n s.eng.cur s.store = (.ok bs, .windowed w) → bs ≠ [] → w.stream.draw.1 = some d →
    exec i s = .next t →
    ∃ w', w'.window = [] ∧ t = s.failed (.windowed w') .backingStoreFailure

/-- On a quiet store, READ_BITS from the cursor before a successful WRITE_BITS returns the written bits and ends at the same
cursor (45_bit_insert.md R187). -/
def Obligations.WriteReadBitsRoundTrip : Prop :=
  ∀ s t : State, s.inv = true → s.store.quiet = true → exec .writeBits s = .next t → t.eng.status = 1 →
    ∃ u, exec .readBits (t.moveTo s.eng.cur) = .next u ∧ u.eng.status = 1 ∧ u.eng.cur = t.eng.cur ∧
      u.eng.res0.toNat = s.eng.opb.toNat % 2 ^ s.eng.opa.toNat

/-- On a quiet store, READ_Uxx from the cursor before a successful WRITE_Uxx with the same byte order returns OPB mod 2^X and ends
at the same cursor (45_bit_insert.md R187). -/
def Obligations.WriteReadUintRoundTrip : Prop :=
  ∀ (wr rd : Instr) (k : Nat) (bo : ByteOrder) (s t : State),
    (wr, rd, k) ∈ [(Instr.writeU8 bo, Instr.readU8 bo, 1), (.writeU16 bo, .readU16 bo, 2), (.writeU32 bo, .readU32 bo, 4),
      (.writeU64 bo, .readU64 bo, 8)] →
    s.inv = true → s.store.quiet = true → exec wr s = .next t → t.eng.status = 1 →
    ∃ u, exec rd (t.moveTo s.eng.cur) = .next u ∧ u.eng.status = 1 ∧ u.eng.cur = t.eng.cur ∧
      u.eng.res0.toNat = s.eng.opb.toNat % 2 ^ (8 * k)

/-! ### Exponential-Golomb encode (46_golomb_encode.md) -/

/-- WRITE_UE writes the code word of OPB, `2·bitlen(OPB + 1) - 1` bits as one field, or fails: by the maximum value, by too little
room, by a failed lookup (46_golomb_encode.md R190, R191). -/
def Obligations.WriteUeResponds : Prop :=
  decode 0x00000030 = .writeUe ∧
  ∀ (s : State) (n : Nat), s.inv = true → n = 2 * (Nat.log2 (s.eng.opb.toNat + 1) + 1) - 1 →
    (s.eng.opb.toNat = 2 ^ 64 - 1 → exec .writeUe s = .next (s.failed s.store .invalidArgument)) ∧
    (s.eng.opb.toNat ≠ 2 ^ 64 - 1 → s.store.quiet = true → s.store.hasBits s.eng.cur n →
      ∃ st, st.quiet = true ∧ s.store.sameShape st ∧ n ≤ 127 ∧
        s.store.content.fieldWritten st.content s.eng.cur.address n (s.eng.opb.toNat + 1) ∧
        exec .writeUe s = .next (s.succeeded st (cursorAt (s.eng.cur.address + n)) 0 0)) ∧
    (s.eng.opb.toNat ≠ 2 ^ 64 - 1 → s.store.quiet = true → ¬ s.store.hasBits s.eng.cur n →
      ∃ st, st.quiet = true ∧ s.store.sameContent st ∧ exec .writeUe s = .next (s.failed st .insufficientData)) ∧
    (∀ r st, s.eng.opb.toNat ≠ 2 ^ 64 - 1 → walk n s.eng.cur s.store = (.error r, st) →
      exec .writeUe s = .next (s.failed st (if r = .oob then .insufficientData else .backingStoreFailure))) ∧
    (∀ bs st q st', s.eng.opb.toNat ≠ 2 ^ 64 - 1 → walk n s.eng.cur s.store = (.ok bs, st) →
      st.put (mergeField bs s.eng.cur.bit n (s.eng.opb.toNat + 1)) s.eng.cur.byte = (q, st') →
      exec .writeUe s = .next (if q = .stored then s.succeeded st' (cursorAt (s.eng.cur.address + n)) 0 0
        else s.failed st' .backingStoreFailure))

/-- WRITE_SE writes the code word of the unsigned code `k` of OPB's two's-complement value, or fails: by the minimum value, by too
little room, by a failed lookup (46_golomb_encode.md R192). -/
def Obligations.WriteSeResponds : Prop :=
  decode 0x00000031 = .writeSe ∧
  ∀ (s : State) (k n : Nat), s.inv = true →
    (k : Int) = (if s.eng.opb.toInt = 0 then 0 else if s.eng.opb.toInt > 0 then 2 * s.eng.opb.toInt - 1 else 2 * -s.eng.opb.toInt) →
    n = 2 * (Nat.log2 (k + 1) + 1) - 1 →
    (s.eng.opb.toInt = -2 ^ 63 → exec .writeSe s = .next (s.failed s.store .invalidArgument)) ∧
    (s.eng.opb.toInt ≠ -2 ^ 63 → s.store.quiet = true → s.store.hasBits s.eng.cur n →
      ∃ st, st.quiet = true ∧ s.store.sameShape st ∧ n ≤ 127 ∧
        s.store.content.fieldWritten st.content s.eng.cur.address n (k + 1) ∧
        exec .writeSe s = .next (s.succeeded st (cursorAt (s.eng.cur.address + n)) 0 0)) ∧
    (s.eng.opb.toInt ≠ -2 ^ 63 → s.store.quiet = true → ¬ s.store.hasBits s.eng.cur n →
      ∃ st, st.quiet = true ∧ s.store.sameContent st ∧ exec .writeSe s = .next (s.failed st .insufficientData)) ∧
    (∀ r st, s.eng.opb.toInt ≠ -2 ^ 63 → walk n s.eng.cur s.store = (.error r, st) →
      exec .writeSe s = .next (s.failed st (if r = .oob then .insufficientData else .backingStoreFailure))) ∧
    (∀ bs st q st', s.eng.opb.toInt ≠ -2 ^ 63 → walk n s.eng.cur s.store = (.ok bs, st) →
      st.put (mergeField bs s.eng.cur.bit n (k + 1)) s.eng.cur.byte = (q, st') →
      exec .writeSe s = .next (if q = .stored then s.succeeded st' (cursorAt (s.eng.cur.address + n)) 0 0
        else s.failed st' .backingStoreFailure))

/-- On a quiet store, READ_UE from the cursor before a successful WRITE_UE returns OPB and ends at the same cursor
(46_golomb_encode.md R193). -/
def Obligations.UeRoundTrip : Prop :=
  ∀ s t : State, s.inv = true → s.store.quiet = true → exec .writeUe s = .next t → t.eng.status = 1 →
    ∃ u, exec .readUe (t.moveTo s.eng.cur) = .next u ∧ u.eng.status = 1 ∧ u.eng.cur = t.eng.cur ∧ u.eng.res0 = s.eng.opb

/-- On a quiet store, READ_SE from the cursor before a successful WRITE_SE returns OPB and ends at the same cursor
(46_golomb_encode.md R193). -/
def Obligations.SeRoundTrip : Prop :=
  ∀ s t : State, s.inv = true → s.store.quiet = true → exec .writeSe s = .next t → t.eng.status = 1 →
    ∃ u, exec .readSe (t.moveTo s.eng.cur) = .next u ∧ u.eng.status = 1 ∧ u.eng.cur = t.eng.cur ∧ u.eng.res0 = s.eng.opb

/-- The signed mapping is the spec's, and its results fit 64 bits without `-2^63` (44_golomb_decode.md R173). -/
def Obligations.SignedMappingRange : Prop :=
  ∀ k : Nat, k ≤ 2 ^ 64 - 2 →
    (k % 2 = 0 → signedOfCode k = -((k / 2 : Nat) : Int)) ∧ (k % 2 = 1 → signedOfCode k = (((k + 1) / 2 : Nat) : Int)) ∧
      -(2 ^ 63 - 1) ≤ signedOfCode k ∧ signedOfCode k ≤ 2 ^ 63 - 1

/-! ### Illegal words (30_encoding.md) -/

/-- An illegal command word fails with INVALID_ARGUMENT and has no other effect (30_encoding.md R107). -/
def Obligations.IllegalWordsFail : Prop :=
  ∀ (s : State) (w : CmdWord), exec (.illegal w) s = .next (s.failed s.store .invalidArgument)

/-! ### The backing stores (20_memory.md) -/

/-- SLICE `At` and `Put`: bounds-checked, no truncation, no growth; the checks in the order offset, absent, empty
(20_memory.md R57, R59). -/
def Obligations.SliceAtAndPut : Prop :=
  ∀ (st : SliceStore) (o : Int) (bytes : List Byte), (Store.slice st).wf = true →
    (Store.slice st).at o =
      ((if 0 ≤ o ∧ o < (st.capacity : Int) then some (st.buf.read o.toNat) else none), .slice st) ∧
    (Store.slice st).putChecked none o = (false, .slice st) ∧
    (o < 0 → (Store.slice st).putChecked (some bytes) o = (false, .slice st)) ∧
    (0 ≤ o → bytes = [] → (Store.slice st).putChecked (some bytes) o = (true, .slice st)) ∧
    (0 ≤ o → bytes ≠ [] → o + bytes.length > st.capacity → (Store.slice st).putChecked (some bytes) o = (false, .slice st)) ∧
    (0 ≤ o → bytes ≠ [] → o + bytes.length ≤ st.capacity →
      ∃ buf, (Store.slice st).putChecked (some bytes) o = (true, .slice { st with buf := buf }) ∧
        ∀ x, buf.read x = if o.toNat ≤ x then (bytes[x - o.toNat]?).getD (st.buf.read x) else st.buf.read x)

/-- SLICE `Slice` clamps to the capacity and never fails; `Length` is the capacity (20_memory.md R58, R60). -/
def Obligations.SliceSliceAndLength : Prop :=
  ∀ (st : SliceStore) (o len : Int),
    ((Store.slice st).sliceBytes o len).2 = .slice st ∧ (Store.slice st).reportLength = (st.capacity, .slice st) ∧
    (len ≤ 0 ∨ o < 0 ∨ (st.capacity : Int) ≤ o → ((Store.slice st).sliceBytes o len).1 = []) ∧
    (0 < len → 0 ≤ o → o < (st.capacity : Int) →
      (((Store.slice st).sliceBytes o len).1.length : Int) = min (o + len) st.capacity - o ∧
      ∀ i, i < ((Store.slice st).sliceBytes o len).1.length →
        ((Store.slice st).sliceBytes o len).1[i]? = some (st.buf.read (o.toNat + i)))

/-- WINDOWED `At`: a hit answers from the window; a miss re-centers around the offset at `max(0, o - W div 2)` and answers from
the new window; a failed stream read empties the window (20_memory.md R62 to R64). -/
def Obligations.WindowedAt : Prop :=
  ∀ (w : WindowedStore) (o : Nat),
    (∀ i : Int, i < 0 → (Store.windowed w).at i = (none, .windowed w)) ∧
    (Store.windowed w).at (o : Int) =
      ((match (w.lookup o).1 with | .ok b => some b | .error _ => none), .windowed (w.lookup o).2) ∧
    (∀ b, w.bufferIndex ≤ o → w.window[o - w.bufferIndex]? = some b → w.lookup o = (.ok b, w)) ∧
    (∀ d, ¬ (w.bufferIndex ≤ o ∧ o < w.bufferIndex + w.window.length) → w.stream.draw.1 = some d →
      w.lookup o = (.error .io, { w with stream := w.stream.draw.2, window := [] })) ∧
    (¬ (w.bufferIndex ≤ o ∧ o < w.bufferIndex + w.window.length) → w.stream.draw.1 = none →
      ∃ r w', w.lookup o = (r, w') ∧ w'.bufferIndex = o - w.windowSize / 2 ∧ w'.windowSize = w.windowSize ∧
        w'.stream = w.stream.draw.2 ∧
        w'.window = w.stream.bytes.readBytes w'.bufferIndex (min w.windowSize (w.stream.length - w'.bufferIndex)) ∧
        (o < w.stream.length → w.windowSize ≠ 0 → r = .ok (w.stream.bytes.read o)) ∧
        (w.stream.length ≤ o → r = .error .oob))

/-- A coherent, fault-free store, SLICE or WINDOWED, answers `At` as plain memory and stays so (20_memory.md R73). -/
def Obligations.QuietStoresArePlainMemory : Prop :=
  ∀ (st : Store) (o : Nat), st.quiet = true → o ≤ Config.maxOffset →
    ∃ st', st'.quiet = true ∧ st.sameContent st' ∧
      (o < st.length → st.lookup o = (.ok (st.content.read o), st')) ∧
      (st.length ≤ o → st.lookup o = (.error .oob, st'))

/-- After a successful `Put` the window shows the written bytes at every overlapping offset, a straddling write included, and its
other bytes as before (20_memory.md R68). -/
def Obligations.PatchedWindowShowsTheWrite : Prop :=
  ∀ (w w' : WindowedStore) (bytes : List Byte) (o : Nat), w.put bytes o = (.stored, w') →
    w'.bufferIndex = w.bufferIndex ∧ w'.window.length = w.window.length ∧
      ∀ a b, w.hit a = some b →
        w'.hit a = some (if o ≤ a then (bytes[a - o]?).getD b else b)

/-- A `Put` whose stream write fails answers false and empties the window; each stream byte holds its old value, or its new one in
the range; the stream may have grown up to the end of the range (20_memory.md R69).  A `Put` whose range passes MAX_OFFSET is
such a one: the model's reading of 00_scope.md R10 (log entry 7).  That the host's answer is a plain false is the model's choice
(log entry 19). -/
def Obligations.FailedPutLeavesOldOrNewBytes : Prop :=
  ∀ (w : WindowedStore) (bytes : List Byte) (o : Nat),
    (∀ w', (Store.windowed w).wf = true → w.put bytes o = (.ioFailed, w') →
      (Store.windowed w).putChecked (some bytes) o = (false, .windowed w') ∧
      w'.window = [] ∧ w.stream.length ≤ w'.stream.length ∧ w'.stream.length ≤ max w.stream.length (o + bytes.length) ∧
        w'.stream.length ≤ Config.maxOffset ∧
        ∀ x, x < w.stream.length →
          w'.stream.bytes.read x = w.stream.bytes.read x ∨ (o ≤ x ∧ bytes[x - o]? = some (w'.stream.bytes.read x))) ∧
    (bytes ≠ [] → Config.maxOffset < o + bytes.length → ∃ w', w.put bytes o = (.ioFailed, w'))

/-- `Reset()` of a WINDOWED store empties the window and changes nothing else (20_memory.md R72). -/
def Obligations.HostResetEmptiesTheWindow : Prop :=
  ∀ (s : State) (w : WindowedStore) (rest : List HostAction), s.store = .windowed w → s.host = .storeReset :: rest →
    step s = .next { s with host := rest, answer := .nothing, store := .windowed { w with window := [] } } ∧
      ∀ o, WindowedStore.hit { w with window := [] } o = none

/-- After another path has written the stream, or failed to by a range past MAX_OFFSET, the window is as before and `At` still
answers from it (20_memory.md R74; log entries 7, 12). -/
def Obligations.StaleWindowAnswers : Prop :=
  ∀ (s : State) (w : WindowedStore) (p : Nat) (bytes : List Byte) (rest : List HostAction),
    s.store = .windowed w → s.host = .streamWrite p bytes :: rest →
    ∃ t w', step s = .next t ∧ t.store = .windowed w' ∧ w'.window = w.window ∧ w'.bufferIndex = w.bufferIndex ∧
      (∀ o b, w.hit o = some b → (t.store.lookup o).1 = .ok b) ∧
      ((Store.windowed w).wf = true → p + bytes.length ≤ Config.maxOffset → ∀ i, i < bytes.length → w'.stream.bytes.read (p + i) = bytes.getD i 0)
end

