-- ==== Sys2Proof/Laws/Memory.lean ====
section
/-! SUPPORT. Store content: read after write, and that every operation keeps the canonical form (20_memory.md R51, R59, R70). -/

namespace Sys2Proof.Machine

theorem Memory.canonicalFrom_cons (lo a : Nat) (b : Byte) (m : Memory) :
    Memory.canonicalFrom lo ((a, b) :: m) = true ↔
      lo ≤ a ∧ b ≠ Config.unlistedByte ∧ Memory.canonicalFrom (a + 1) m = true := by
  simp [Memory.canonicalFrom, and_assoc]

theorem Memory.canonicalFrom_mono {lo lo' : Nat} {m : Memory} (h : Memory.canonicalFrom lo m = true) (hl : lo' ≤ lo) :
    Memory.canonicalFrom lo' m = true := by
  cases m with
  | nil => rfl
  | cons c m =>
    rw [Memory.canonicalFrom_cons] at h ⊢
    exact ⟨by omega, h.2⟩

theorem Memory.read_below {lo o : Nat} {m : Memory} (h : Memory.canonicalFrom lo m = true) (ho : o < lo) :
    m.read o = Config.unlistedByte := by
  induction m generalizing lo with
  | nil => rfl
  | cons c m ih =>
    obtain ⟨a, b⟩ := c
    rw [Memory.canonicalFrom_cons] at h
    rw [Memory.read, if_neg (by omega)]
    exact ih h.2.2 (by omega)

theorem Memory.read_write {lo : Nat} {m : Memory} (h : Memory.canonicalFrom lo m = true) (o : Nat) (v : Byte) (x : Nat) :
    (m.write o v).read x = if x = o then v else m.read x := by
  induction m generalizing lo with
  | nil =>
    by_cases hv : v = Config.unlistedByte <;> simp [Memory.write, Memory.read, hv]
  | cons c m ih =>
    obtain ⟨a, b⟩ := c
    rw [Memory.canonicalFrom_cons] at h
    have hm := Memory.read_below h.2.2 (o := o)
    have ha := Memory.read_below h.2.2 (o := a) (by omega)
    rw [Memory.write]
    by_cases h1 : o < a
    · rw [if_pos h1]
      by_cases hv : v = Config.unlistedByte
      · rw [if_pos hv]
        by_cases hx : x = o
        · subst hx; simp [Memory.read, show x ≠ a by omega, hm (by omega), hv]
        · simp [hx]
      · simp [if_neg hv, Memory.read]
    · rw [if_neg h1]
      by_cases h2 : o = a
      · subst h2
        by_cases hx : x = o <;> by_cases hv : v = Config.unlistedByte <;> simp [Memory.read, hx, hv, ha]
      · rw [if_neg h2, Memory.read, Memory.read, ih h.2.2]
        by_cases hx : x = o
        · subst hx; simp [h2]
        · simp [hx]

theorem Memory.canonicalFrom_write {lo : Nat} {m : Memory} (h : Memory.canonicalFrom lo m = true) {o : Nat} (ho : lo ≤ o) (v : Byte) :
    Memory.canonicalFrom lo (m.write o v) = true := by
  induction m generalizing lo with
  | nil =>
    by_cases hv : v = Config.unlistedByte
    · simp [Memory.write, hv, Memory.canonicalFrom]
    · rw [Memory.write, if_neg hv, Memory.canonicalFrom_cons]
      exact ⟨ho, hv, rfl⟩
  | cons c m ih =>
    obtain ⟨a, b⟩ := c
    have h' := h
    rw [Memory.canonicalFrom_cons] at h
    simp only [Memory.write]
    split_ifs with h1 h2 h3 h4
    · exact h'
    · rw [Memory.canonicalFrom_cons, Memory.canonicalFrom_cons]
      exact ⟨ho, h2, by omega, h.2⟩
    · exact Memory.canonicalFrom_mono h.2.2 (by omega)
    · rw [Memory.canonicalFrom_cons]
      exact ⟨ho, h4, h3 ▸ h.2.2⟩
    · rw [Memory.canonicalFrom_cons]
      exact ⟨h.1, h.2.1, ih h.2.2 (by omega)⟩

theorem Memory.wf_write {m : Memory} (h : m.wf = true) (o : Nat) (v : Byte) : (m.write o v).wf = true :=
  Memory.canonicalFrom_write h (Nat.zero_le o) v

theorem Memory.mem_write {m : Memory} {o : Nat} {v : Byte} {c : Host.Cell} (h : c ∈ m.write o v) : c = (o, v) ∨ c ∈ m := by
  induction m with
  | nil =>
    rw [Memory.write] at h
    split_ifs at h
    · exact .inr h
    · exact .inl (by simpa using h)
  | cons d m ih =>
    obtain ⟨a, b⟩ := d
    rw [Memory.write] at h
    split_ifs at h
    · exact .inr h
    · simpa using h
    · exact .inr (List.mem_cons_of_mem _ h)
    · rcases List.mem_cons.mp h with h | h
      · exact .inl h
      · exact .inr (List.mem_cons_of_mem _ h)
    · rcases List.mem_cons.mp h with h | h
      · exact .inr (h ▸ List.mem_cons_self)
      · exact (ih h).imp id (List.mem_cons_of_mem _)

theorem Memory.below_write {n : Nat} {m : Memory} (h : m.below n = true) {o : Nat} (ho : o < n) (v : Byte) :
    (m.write o v).below n = true := by
  simp only [Memory.below, List.all_eq_true, decide_eq_true_eq] at h ⊢
  intro c hc
  rcases Memory.mem_write hc with rfl | hc
  · exact ho
  · exact h c hc

theorem Memory.wf_writeBytes {m : Memory} (h : m.wf = true) (o : Nat) (bs : List Byte) : (m.writeBytes o bs).wf = true := by
  induction bs generalizing m o with
  | nil => exact h
  | cons b bs ih => exact ih (Memory.wf_write h o b) (o + 1)

theorem Memory.below_writeBytes {n : Nat} {m : Memory} (h : m.below n = true) {o : Nat} (bs : List Byte) (ho : o + bs.length ≤ n) :
    (m.writeBytes o bs).below n = true := by
  induction bs generalizing m o with
  | nil => exact h
  | cons b bs ih =>
    rw [List.length_cons] at ho
    exact ih (Memory.below_write h (by omega) b) (by omega)

theorem Memory.read_writeBytes {m : Memory} (h : m.wf = true) (o : Nat) (bs : List Byte) (x : Nat) :
    (m.writeBytes o bs).read x = if o ≤ x then (bs[x - o]?).getD (m.read x) else m.read x := by
  induction bs generalizing m o with
  | nil => simp [Memory.writeBytes]
  | cons b bs ih =>
    rw [Memory.writeBytes, ih (Memory.wf_write h o b), Memory.read_write h]
    rcases Nat.lt_trichotomy x o with hx | hx | hx
    · simp [show ¬ o + 1 ≤ x by omega, show ¬ o ≤ x by omega, show x ≠ o by omega]
    · subst hx; simp
    · obtain ⟨d, rfl⟩ : ∃ d, x = o + 1 + d := ⟨x - (o + 1), by omega⟩
      simp [show o ≤ o + 1 + d by omega, show o + 1 + d - o = d + 1 by omega, show o + 1 + d ≠ o by omega]

@[simp] theorem Memory.length_readBytes (m : Memory) (o n : Nat) : (m.readBytes o n).length = n := by
  induction n generalizing o with
  | zero => rfl
  | succ n ih => simp [Memory.readBytes, ih]

theorem Memory.getElem?_readBytes (m : Memory) (o n i : Nat) :
    (m.readBytes o n)[i]? = if i < n then some (m.read (o + i)) else none := by
  induction n generalizing o i with
  | zero => simp [Memory.readBytes]
  | succ n ih =>
    cases i with
    | zero => simp [Memory.readBytes]
    | succ i => simp [Memory.readBytes, ih, Nat.add_right_comm, Nat.add_assoc]

theorem Memory.readBytes_congr {m m' : Memory} {o n : Nat} (h : ∀ i < n, m'.read (o + i) = m.read (o + i)) :
    m'.readBytes o n = m.readBytes o n := by
  apply List.ext_getElem?
  intro i
  simp only [Memory.getElem?_readBytes]
  split_ifs with hi
  · rw [h i hi]
  · rfl

theorem Memory.readBytes_writeBytes {m : Memory} (h : m.wf = true) (o : Nat) (bs : List Byte) :
    (m.writeBytes o bs).readBytes o bs.length = bs := by
  apply List.ext_getElem?
  intro i
  simp only [Memory.getElem?_readBytes, Memory.read_writeBytes h]
  split_ifs with h1 h2
  · simp [h1]
  · omega
  · simp; omega

theorem Memory.canonicalFrom_truncate {lo : Nat} {m : Memory} (h : Memory.canonicalFrom lo m = true) (n : Nat) :
    Memory.canonicalFrom lo (m.truncate n) = true := by
  induction m generalizing lo with
  | nil => rfl
  | cons c m ih =>
    obtain ⟨a, b⟩ := c
    rw [Memory.canonicalFrom_cons] at h
    have := ih h.2.2
    simp only [Memory.truncate, List.filter_cons] at this ⊢
    split_ifs
    · rw [Memory.canonicalFrom_cons]; exact ⟨h.1, h.2.1, this⟩
    · exact Memory.canonicalFrom_mono this (by omega)

theorem Memory.wf_truncate {m : Memory} (h : m.wf = true) (n : Nat) : (m.truncate n).wf = true :=
  Memory.canonicalFrom_truncate h n

theorem Memory.below_truncate {k : Nat} {m : Memory} (h : m.below k = true) (n : Nat) : (m.truncate n).below (min k n) = true := by
  simp only [Memory.below, Memory.truncate, List.all_eq_true, List.mem_filter, decide_eq_true_eq] at h ⊢
  intro c hc
  have := h c hc.1
  omega

theorem Memory.below_mono {k n : Nat} {m : Memory} (h : m.below k = true) (hk : k ≤ n) : m.below n = true := by
  simp only [Memory.below, List.all_eq_true, decide_eq_true_eq] at h ⊢
  intro c hc
  have := h c hc
  omega

theorem Memory.wf_writeSome {limit : Nat} {m : Memory} (h : m.wf = true) (o : Nat) (bs : List Byte) (ds : List Bool) :
    (Memory.writeSome limit m o bs ds).wf = true := by
  induction bs generalizing m o ds with
  | nil => simpa [Memory.writeSome] using h
  | cons b bs ih =>
    cases ds with
    | nil => simpa [Memory.writeSome] using h
    | cons d ds =>
      rw [Memory.writeSome]
      apply ih
      split_ifs
      · exact Memory.wf_write h o b
      · exact h

theorem Memory.below_writeSome {limit : Nat} {m : Memory} (h : m.below limit = true) (o : Nat) (bs : List Byte) (ds : List Bool) :
    (Memory.writeSome limit m o bs ds).below limit = true := by
  induction bs generalizing m o ds with
  | nil => simpa [Memory.writeSome] using h
  | cons b bs ih =>
    cases ds with
    | nil => simpa [Memory.writeSome] using h
    | cons d ds =>
      rw [Memory.writeSome]
      apply ih
      split_ifs with hd
      · simp only [Bool.and_eq_true, decide_eq_true_eq] at hd
        exact Memory.below_write h hd.2 b
      · exact h

/-- After a failed write every byte holds its old value, or the new one at an offset of the range the stream reaches
(93_implementation_defined.md U4). -/
theorem Memory.read_writeSome {limit : Nat} {m : Memory} (h : m.wf = true) (o : Nat) (bs : List Byte) (ds : List Bool) (x : Nat) :
    (Memory.writeSome limit m o bs ds).read x = m.read x ∨
      (o ≤ x ∧ x < limit ∧ bs[x - o]? = some ((Memory.writeSome limit m o bs ds).read x)) := by
  induction bs generalizing m o ds with
  | nil => left; simp [Memory.writeSome]
  | cons b bs ih =>
    cases ds with
    | nil => left; simp [Memory.writeSome]
    | cons d ds =>
      rw [Memory.writeSome]
      have hw : (if (d && decide (o < limit)) = true then m.write o b else m).wf = true := by
        split_ifs
        · exact Memory.wf_write h o b
        · exact h
      rcases ih hw (o + 1) ds with e | ⟨h1, h2, h3⟩
      · rw [e]
        split_ifs with hd
        · simp only [Bool.and_eq_true, decide_eq_true_eq] at hd
          rw [Memory.read_write h]
          by_cases hx : x = o
          · subst hx; right; simp [hd.2]
          · left; simp [hx]
        · left; rfl
      · right
        refine ⟨by omega, h2, ?_⟩
        rw [show x - o = (x - (o + 1)) + 1 by omega, List.getElem?_cons_succ]
        exact h3

end Sys2Proof.Machine
end

