-- ==== Sys2Proof/Laws/Bits.lean ====
section
/-! SUPPORT. The byte-and-shift forms of the model are the spec's bit addressing: fields read and merged over bytes are the bits of store content (00_scope.md R14, R15; 41_bit_extract.md R136; 45_bit_insert.md R180, R188). -/

namespace Sys2Proof.Machine

/-! ### Bytes and numbers -/

theorem ofBytes_lt (bs : List Byte) : ofBytes bs < 2 ^ (8 * bs.length) := by
  induction bs with
  | nil => simp [ofBytes]
  | cons b bs ih =>
    have hb := b.isLt
    rw [ofBytes, List.length_cons, show 8 * (bs.length + 1) = 8 + 8 * bs.length by ring, Nat.pow_add]
    nlinarith [Nat.two_pow_pos (8 * bs.length)]

@[simp] theorem length_toBytes (k v : Nat) : (toBytes k v).length = k := by
  induction k with
  | zero => rfl
  | succ k ih => simp [toBytes, ih]

theorem ofBytes_toBytes (k v : Nat) : ofBytes (toBytes k v) = v % 2 ^ (8 * k) := by
  induction k with
  | zero => simp [toBytes, ofBytes, Nat.mod_one]
  | succ k ih =>
    rw [toBytes, ofBytes, length_toBytes, ih, BitVec.toNat_ofNat, show 8 * (k + 1) = 8 * k + 8 by ring, Nat.pow_add,
      Nat.mod_mul]
    ring

theorem toBytes_ofBytes (bs : List Byte) : toBytes bs.length (ofBytes bs) = bs := by
  induction bs with
  | nil => rfl
  | cons b bs ih =>
    have hlt := ofBytes_lt bs
    have hpos := Nat.two_pow_pos (8 * bs.length)
    have htail : ∀ k v w : Nat, toBytes k (w * 2 ^ (8 * k) + v) = toBytes k v := by
      intro k
      induction k with
      | zero => intros; rfl
      | succ k ihk =>
        intro v w
        rw [toBytes, toBytes]
        congr 1
        · apply BitVec.eq_of_toNat_eq
          rw [BitVec.toNat_ofNat, BitVec.toNat_ofNat,
            show w * 2 ^ (8 * (k + 1)) + v = v + 2 ^ (8 * k) * (w * 2 ^ 8) by
              rw [show 8 * (k + 1) = 8 * k + 8 by ring, Nat.pow_add]; ring,
            Nat.add_mul_div_left _ _ (Nat.two_pow_pos _), Nat.add_mul_mod_self_right]
        · rw [show w * 2 ^ (8 * (k + 1)) + v = (w * 2 ^ 8) * 2 ^ (8 * k) + v by
              rw [show 8 * (k + 1) = 8 * k + 8 by ring, Nat.pow_add]; ring]
          exact ihk v _
    rw [List.length_cons, toBytes, ofBytes, htail, ih]
    congr 1
    rw [Nat.mul_comm, Nat.mul_add_div hpos, Nat.div_eq_of_lt hlt]
    simp

/-! ### Fields of store content -/

theorem Memory.fieldAt_lt (m : Memory) (p n : Nat) : m.fieldAt p n < 2 ^ n := by
  induction n with
  | zero => simp [Memory.fieldAt]
  | succ n ih =>
    have := Bool.toNat_le (m.bitAt (p + n))
    rw [Memory.fieldAt, Nat.pow_succ]
    omega

theorem Memory.fieldAt_append (m : Memory) (p a b : Nat) :
    m.fieldAt p (a + b) = m.fieldAt p a * 2 ^ b + m.fieldAt (p + a) b := by
  induction b with
  | zero => simp [Memory.fieldAt]
  | succ b ih =>
    rw [← Nat.add_assoc, Memory.fieldAt, ih, Memory.fieldAt, Nat.pow_succ, Nat.add_assoc p a b]
    ring

theorem Memory.testBit_fieldAt (m : Memory) (p n i : Nat) :
    (m.fieldAt p n).testBit i = (decide (i < n) && m.bitAt (p + (n - 1 - i))) := by
  induction n generalizing i with
  | zero => simp [Memory.fieldAt]
  | succ n ih =>
    cases i with
    | zero =>
      rw [Memory.fieldAt, Nat.testBit_zero]
      cases h : m.bitAt (p + n) <;> simp [Nat.add_mod, h]
    | succ i =>
      rw [Memory.fieldAt, Nat.testBit_succ,
        show (2 * m.fieldAt p n + (m.bitAt (p + n)).toNat) / 2 = m.fieldAt p n by
          have := Bool.toNat_lt (m.bitAt (p + n)); omega, ih]
      congr 1
      · simp
      · congr 2; omega

theorem Memory.fieldAt_one (m : Memory) (p : Nat) : m.fieldAt p 1 = (m.bitAt p).toNat := by
  simp [Memory.fieldAt]

theorem Memory.fieldAt_byte (m : Memory) (o : Nat) : m.fieldAt (8 * o) 8 = (m.read o).toNat := by
  apply Nat.eq_of_testBit_eq
  intro i
  rw [Memory.testBit_fieldAt, BitVec.testBit_toNat]
  by_cases hi : i < 8
  · rw [Memory.bitAt, show (8 * o + (8 - 1 - i)) / 8 = o by omega, show 7 - (8 * o + (8 - 1 - i)) % 8 = i by omega]
    simp [hi]
  · simp [hi, BitVec.getLsbD_of_ge _ _ (Nat.le_of_not_lt hi)]

theorem ofBytes_readBytes (m : Memory) (o k : Nat) : ofBytes (m.readBytes o k) = m.fieldAt (8 * o) (8 * k) := by
  induction k generalizing o with
  | zero => rfl
  | succ k ih =>
    rw [Memory.readBytes, ofBytes, ih, Memory.length_readBytes, show 8 * (k + 1) = 8 + 8 * k by ring,
      Memory.fieldAt_append, Memory.fieldAt_byte, show 8 * o + 8 = 8 * (o + 1) by ring]

/-- The field assembled from the walk's bytes is the field of store content at the cursor (41_bit_extract.md R136, 00_scope.md R15). -/
theorem field_readBytes (m : Memory) {o k t n : Nat} (h : t + n ≤ 8 * k) :
    field (m.readBytes o k) t n = m.fieldAt (8 * o + t) n := by
  obtain ⟨s, hs⟩ : ∃ s, 8 * k = t + (n + s) := ⟨8 * k - t - n, by omega⟩
  rw [field, ofBytes_readBytes, Memory.length_readBytes, hs, show t + (n + s) - t - n = s by omega, Memory.fieldAt_append,
    Memory.fieldAt_append, Nat.shiftRight_eq_div_pow, Nat.pow_add, ← Nat.mul_assoc, ← Nat.add_assoc, ← Nat.add_mul,
    Nat.mul_comm _ (2 ^ s), Nat.mul_add_div (Nat.two_pow_pos s), Nat.div_eq_of_lt (Memory.fieldAt_lt m _ s), Nat.add_zero,
    Nat.add_comm, Nat.add_mul_mod_self_right, Nat.mod_eq_of_lt (Memory.fieldAt_lt m _ n)]

theorem field_lt (bs : List Byte) (t n : Nat) : field bs t n < 2 ^ n := Nat.mod_lt _ (Nat.two_pow_pos n)

/-- A field splits into its leading and its trailing bits (00_scope.md R15). -/
theorem Memory.fieldAt_split (m : Memory) (p a b : Nat) :
    m.fieldAt p a = m.fieldAt p (a + b) / 2 ^ b ∧ m.fieldAt (p + a) b = m.fieldAt p (a + b) % 2 ^ b := by
  have hlt := m.fieldAt_lt (p + a) b
  rw [Memory.fieldAt_append, Nat.mul_comm]
  exact ⟨by rw [Nat.mul_add_div (Nat.two_pow_pos b), Nat.div_eq_of_lt hlt, Nat.add_zero],
    by rw [Nat.mul_add_mod, Nat.mod_eq_of_lt hlt]⟩

/-- Group `j` of 8 bits of a field of `k` bytes, counted from its first bit (20_memory.md R76). -/
theorem Memory.fieldAt_group (m : Memory) (p : Nat) {k j : Nat} (h : j < k) :
    m.fieldAt (p + 8 * j) 8 = m.fieldAt p (8 * k) / 2 ^ (8 * (k - 1 - j)) % 2 ^ 8 := by
  have hk : 8 * k = 8 * (j + 1) + 8 * (k - 1 - j) := by omega
  rw [hk, ← (m.fieldAt_split p (8 * (j + 1)) (8 * (k - 1 - j))).1, Nat.mul_add, ← (m.fieldAt_split p (8 * j) 8).2]

/-! ### Merging a field (45_bit_insert.md R180) -/

@[simp] theorem length_mergeField (bs : List Byte) (t n v : Nat) : (mergeField bs t n v).length = bs.length := by
  simp [mergeField]

theorem testBit_merge (x k s n v i : Nat) (hi : i < 8 * k) :
    ((x &&& ((2 ^ (8 * k) - 1) ^^^ ((2 ^ n - 1) <<< s))) ||| ((v % 2 ^ n) <<< s)).testBit i =
      if s ≤ i ∧ i < s + n then v.testBit (i - s) else x.testBit i := by
  simp only [Nat.testBit_or, Nat.testBit_and, Nat.testBit_xor, Nat.testBit_shiftLeft, Nat.testBit_two_pow_sub_one,
    Nat.testBit_mod_two_pow, hi, decide_true, ge_iff_le]
  by_cases h1 : s ≤ i
  · by_cases h2 : i < s + n
    · simp [h1, h2, show i - s < n by omega]
    · simp [h1, h2, show ¬ i - s < n by omega]
  · simp [h1]

/-- The bits of store content after the merged bytes are stored: the field's bits are the value's, every other bit is kept. -/
theorem Memory.bitAt_writeBytes_merge {m : Memory} (hw : m.wf = true) {o k t n : Nat} (h : t + n ≤ 8 * k) (v q : Nat) :
    (m.writeBytes o (mergeField (m.readBytes o k) t n v)).bitAt q =
      if 8 * o + t ≤ q ∧ q < 8 * o + t + n then v.testBit (n - 1 - (q - (8 * o + t))) else m.bitAt q := by
  by_cases hq : o ≤ q / 8 ∧ q / 8 < o + k
  · obtain ⟨j, rfl⟩ : ∃ j, q = 8 * o + j := ⟨q - 8 * o, by omega⟩
    have hj : j < 8 * k := by omega
    set m' := m.writeBytes o (mergeField (m.readBytes o k) t n v)
    have hrb : m'.readBytes o k = mergeField (m.readBytes o k) t n v := by
      simpa using Memory.readBytes_writeBytes hw o (mergeField (m.readBytes o k) t n v)
    have key : ∀ i, i < 8 * k → (m'.fieldAt (8 * o) (8 * k)).testBit i =
        if 8 * k - t - n ≤ i ∧ i < 8 * k - t - n + n then v.testBit (i - (8 * k - t - n))
        else (m.fieldAt (8 * o) (8 * k)).testBit i := by
      intro i hi
      rw [← ofBytes_readBytes, hrb, mergeField]
      simp only [Memory.length_readBytes]
      rw [ofBytes_toBytes, Nat.testBit_mod_two_pow, testBit_merge _ _ _ _ _ _ hi, ofBytes_readBytes]
      simp [hi]
    have := key (8 * k - 1 - j) (by omega)
    rw [Memory.testBit_fieldAt, Memory.testBit_fieldAt, show 8 * k - 1 - (8 * k - 1 - j) = j by omega] at this
    simp only [show 8 * k - 1 - j < 8 * k by omega, decide_true, Bool.true_and] at this
    rw [this]
    by_cases hin : 8 * o + t ≤ 8 * o + j ∧ 8 * o + j < 8 * o + t + n
    · rw [if_pos (by omega), if_pos hin]
      congr 1; omega
    · rw [if_neg (by omega), if_neg hin]
  · rw [if_neg (by omega), Memory.bitAt, Memory.bitAt, Memory.read_writeBytes hw]
    split_ifs with h1
    · rw [List.getElem?_eq_none (by simp; omega)]; rfl
    · rfl

theorem Memory.fieldAt_congr {m m' : Memory} {p n : Nat} (h : ∀ i < n, m'.bitAt (p + i) = m.bitAt (p + i)) :
    m'.fieldAt p n = m.fieldAt p n := by
  induction n with
  | zero => rfl
  | succ n ih => rw [Memory.fieldAt, Memory.fieldAt, ih fun i hi => h i (by omega), h n (by omega)]

theorem Memory.bitAt_of_fieldAt {m m' : Memory} {p n : Nat} (h : m'.fieldAt p n = m.fieldAt p n) {i : Nat} (hi : i < n) :
    m'.bitAt (p + i) = m.bitAt (p + i) := by
  have := congrArg (fun x => x.testBit (n - 1 - i)) h
  simp only [Memory.testBit_fieldAt, show n - 1 - i < n by omega, decide_true, Bool.true_and,
    show n - 1 - (n - 1 - i) = i by omega] at this
  exact this

/-- Storing the merged bytes writes exactly the field (45_bit_insert.md R180, R188). -/
theorem Memory.fieldWritten_merge {m : Memory} (hw : m.wf = true) {o t n : Nat} (ht : t < 8) (v : Nat) :
    m.fieldWritten (m.writeBytes o (mergeField (m.readBytes o (bytesTouched t n)) t n v)) (8 * o + t) n v := by
  have hk : t + n ≤ 8 * bytesTouched t n := by simp only [bytesTouched]; omega
  refine ⟨?_, ?_, ?_⟩
  · apply Nat.eq_of_testBit_eq
    intro i
    rw [Memory.testBit_fieldAt, Nat.testBit_mod_two_pow, Memory.bitAt_writeBytes_merge hw hk]
    by_cases hi : i < n
    · rw [if_pos (by omega)]
      simp only [hi, decide_true, Bool.true_and]
      congr 1; omega
    · simp [hi]
  · intro q hq
    rw [Memory.bitAt_writeBytes_merge hw hk, if_neg (by omega)]
  · intro a ha
    rw [show (8 * o + t) / 8 = o by omega, show (8 * o + t) % 8 = t by omega] at ha
    rw [Memory.read_writeBytes hw]
    split_ifs with h1
    · rw [List.getElem?_eq_none (by simp; omega)]; rfl
    · rfl

/-! ### Byte order (42_fixed_width_unpack.md R154, R155) -/

theorem ofBytes_append (a b : List Byte) : ofBytes (a ++ b) = ofBytes a * 2 ^ (8 * b.length) + ofBytes b := by
  induction a with
  | nil => simp [ofBytes]
  | cons x a ih =>
    rw [List.cons_append, ofBytes, ih, ofBytes, List.length_append, Nat.mul_add, Nat.pow_add]
    ring

theorem ofBytes_reverse_byte (bs : List Byte) (j : Nat) (hj : j < bs.length) :
    ofBytes bs.reverse / 2 ^ (8 * j) % 2 ^ 8 = bs[j].toNat := by
  induction bs generalizing j with
  | nil => simp at hj
  | cons b bs ih =>
    have hb := b.isLt
    rw [List.reverse_cons, ofBytes_append, show ofBytes [b] = b.toNat by simp [ofBytes]]
    cases j with
    | zero => simp; omega
    | succ j =>
      simp only [List.length_singleton, List.getElem_cons_succ]
      rw [← ih j (by simpa using hj), show 8 * (j + 1) = 8 + 8 * j by ring, Nat.pow_add, ← Nat.div_div_eq_div_mul]
      congr 2
      omega

theorem getElem_toBytes (k v j : Nat) (h : j < k) :
    ((toBytes k v)[j]'(by simpa using h)).toNat = v / 2 ^ (8 * (k - 1 - j)) % 2 ^ 8 := by
  induction k generalizing j with
  | zero => omega
  | succ k ih =>
    cases j with
    | zero => simp [toBytes]
    | succ j =>
      simp only [toBytes, List.getElem_cons_succ]
      rw [ih j (by omega)]
      congr 4
      omega

/-- Byte `j` of a swapped value is byte `k - 1 - j` of the value (00_scope.md R13). -/
theorem byteSwap_byte (v : Nat) {k j : Nat} (h : j < k) :
    byteSwap k v / 2 ^ (8 * j) % 2 ^ 8 = v / 2 ^ (8 * (k - 1 - j)) % 2 ^ 8 := by
  rw [byteSwap, ofBytes_reverse_byte _ _ (by simpa using h), getElem_toBytes _ _ _ h]

theorem byteSwap_zero (k : Nat) : byteSwap k 0 = 0 := by
  have hb : toBytes k 0 = List.replicate k 0#8 := by
    induction k with
    | zero => rfl
    | succ k ih => simp [toBytes, ih, List.replicate_succ]
  have h0 : ofBytes (List.replicate k 0#8) = 0 := by
    clear hb
    induction k with
    | zero => rfl
    | succ k ih => simpa [ofBytes, List.replicate_succ] using ih
  rw [byteSwap, hb, List.reverse_replicate, h0]

theorem byteSwap_lt (k v : Nat) : byteSwap k v < 2 ^ (8 * k) := by
  simpa [byteSwap] using ofBytes_lt (toBytes k v).reverse

theorem byteSwap_byteSwap {k v : Nat} (h : v < 2 ^ (8 * k)) : byteSwap k (byteSwap k v) = v := by
  have hl : (toBytes k v).reverse.length = k := by simp
  have := toBytes_ofBytes (toBytes k v).reverse
  rw [hl] at this
  rw [byteSwap, byteSwap, this, List.reverse_reverse, ofBytes_toBytes, Nat.mod_eq_of_lt h]

theorem ordered_lt (bo : ByteOrder) {k v : Nat} (h : v < 2 ^ (8 * k)) : ordered bo k v < 2 ^ (8 * k) := by
  cases bo with
  | big => exact h
  | little => exact byteSwap_lt k v

theorem ordered_ordered (bo : ByteOrder) {k v : Nat} (h : v < 2 ^ (8 * k)) : ordered bo k (ordered bo k v) = v := by
  cases bo with
  | big => rfl
  | little => exact byteSwap_byteSwap h

/-! ### Code words (44_golomb_decode.md R170, R173; 46_golomb_encode.md R190) -/

theorem two_pow_bitLength_le {c : Nat} (h : 1 ≤ c) : 2 ^ (bitLength c - 1) ≤ c :=
  (Nat.le_log2 (by omega)).mp (by simp [bitLength])

theorem lt_two_pow_bitLength (c : Nat) : c < 2 ^ bitLength c := Nat.lt_log2_self

theorem bitLength_le {c n : Nat} (h : c < 2 ^ n) (hc : 1 ≤ c) : bitLength c ≤ n := by
  have : c.log2 < n := (Nat.log2_lt (by omega)).mpr h
  rw [bitLength]; omega

theorem one_le_bitLength (c : Nat) : 1 ≤ bitLength c := by rw [bitLength]; omega

theorem one_le_codeWidth (c : Nat) : 1 ≤ codeWidth c := by
  have := one_le_bitLength c
  rw [codeWidth]; omega

theorem codeWidth_le {c : Nat} (hc : 1 ≤ c) (h : c < 2 ^ 64) : codeWidth c ≤ 127 := by
  have := bitLength_le h hc
  rw [codeWidth]; omega

/-- A field of the width of a code that holds the code is its code word (44_golomb_decode.md R170, 46_golomb_encode.md R190). -/
theorem Memory.codeAt_of_field {m : Memory} {p c : Nat} (hc : 1 ≤ c) (h : m.fieldAt p (codeWidth c) = c) :
    m.codeAt p (bitLength c - 1) ∧ m.fieldAt (p + (bitLength c - 1)) (bitLength c) = c := by
  obtain ⟨z, hz⟩ : ∃ z, bitLength c = z + 1 := ⟨bitLength c - 1, by have := one_le_bitLength c; omega⟩
  have hlo := two_pow_bitLength_le hc
  have hhi := lt_two_pow_bitLength c
  rw [codeWidth, hz, show 2 * (z + 1) - 1 = z + (z + 1) by omega] at h
  rw [hz] at hlo hhi
  rw [hz, Nat.add_sub_cancel] at *
  have hd := m.fieldAt_split p z (z + 1)
  rw [h, Nat.div_eq_of_lt hhi, Nat.mod_eq_of_lt hhi] at hd
  have h1 := m.fieldAt_split (p + z) 1 z
  rw [Nat.add_comm 1 z, hd.2, Memory.fieldAt_one,
    Nat.div_eq_of_lt_le (k := 1) (by simpa using hlo) (by simpa [Nat.pow_succ, Nat.mul_comm] using hhi)] at h1
  exact ⟨⟨hd.1, by simpa using h1.1⟩, hd.2⟩

/-- The bits from an address on: all zero, or a first 1-bit after a run of zeros (44_golomb_decode.md R171). -/
theorem Memory.zeros_or_code (m : Memory) (p n : Nat) : m.fieldAt p n = 0 ∨ ∃ z < n, m.codeAt p z := by
  induction n with
  | zero => exact .inl rfl
  | succ n ih =>
    rcases ih with h | ⟨z, hz, h⟩
    · cases hb : m.bitAt (p + n) with
      | true => exact .inr ⟨n, by omega, h, hb⟩
      | false => left; rw [Memory.fieldAt, h, hb]; rfl
    · exact .inr ⟨z, by omega, h⟩

theorem signedOfCode_range {k : Nat} (h : k ≤ 2 ^ 64 - 2) :
    -(2 ^ 63 - 1) ≤ signedOfCode k ∧ signedOfCode k ≤ 2 ^ 63 - 1 := by
  unfold signedOfCode
  split_ifs <;> omega

theorem toInt_ofInt_word {x : Int} (h1 : -2 ^ 63 ≤ x) (h2 : x < 2 ^ 63) : (BitVec.ofInt 64 x).toInt = x := by
  rw [BitVec.toInt_ofInt, Int.bmod_def]
  omega

theorem toInt_of_nonneg {w : Word} (h : 0 ≤ w.toInt) : w.toInt = (w.toNat : Int) := by
  have := w.isLt
  rw [BitVec.toInt_eq_toNat_cond] at h ⊢
  split_ifs at h ⊢
  · rfl
  · omega

theorem signedOfCode_codeOfSigned (v : Int) : signedOfCode (codeOfSigned v) = v := by
  unfold codeOfSigned signedOfCode
  split_ifs <;> omega

theorem codeOfSigned_signedOfCode (k : Nat) : codeOfSigned (signedOfCode k) = k := by
  unfold codeOfSigned signedOfCode
  split_ifs <;> omega

end Sys2Proof.Machine
end

