-- ==== Sys2Proof/Laws/Decode.lean ====
section
/-! SUPPORT. The fields of a command word and the opcode map: a word is its three fields, and a map entry encodes to its OP and BO (30_encoding.md R100 to R103). -/

namespace Sys2Proof

theorem opField_lt (w : CmdWord) : opField w < 256 := (w.extractLsb' 0 8).isLt

theorem opField_eq (w : CmdWord) : opField w = w.toNat % 256 := by
  simp only [opField, BitVec.extractLsb'_toNat]
  simp

/-- A word is `OP`, `BO` and `RSV` side by side (30_encoding.md R100). -/
theorem toNat_fields (w : CmdWord) :
    w.toNat = opField w + 256 * (if boField w = .little then 1 else 0) + 512 * rsvField w := by
  have h := w.isLt
  simp only [opField, rsvField, boField, BitVec.extractLsb'_toNat, BitVec.getLsbD, Nat.testBit_eq_decide_div_mod_eq,
    Nat.shiftRight_eq_div_pow]
  rcases Nat.mod_two_eq_zero_or_one (w.toNat / 2 ^ 8) with h | h <;> rw [h] <;> simp <;> omega

/-- An entry of the opcode map is well formed, no illegal word, and encodes to its OP and BO (30_encoding.md R103). -/
theorem opcodeMap_entry {op : Nat} {bo : ByteOrder} {i : Instr} (h : opcodeMap op bo = some i) :
    i.wellFormed = true ∧ (encode i).toNat = op + 256 * (if bo = .little then 1 else 0) ∧ ∀ w, i ≠ .illegal w := by
  unfold opcodeMap at h
  split at h <;> first
    | (simp only [Option.some.injEq] at h; subst h
       exact ⟨rfl, by first | rfl | (cases bo <;> rfl), by simp⟩)
    | simp at h

/-- Which OP values the map holds with BO = 0, and with BO = 1 (30_encoding.md R101, R103). -/
theorem opcodeMap_big : ∀ op < 256, (opcodeMap op .big).isSome = legalOps.contains op := by
  set_option maxRecDepth 10000 in decide

theorem opcodeMap_little : ∀ op < 256, (opcodeMap op .little).isSome = orderedOps.contains op := by
  set_option maxRecDepth 10000 in decide

end Sys2Proof
end

