-- ==== Sys2Proof/Laws/State.lean ====
section
/-! SUPPORT. One lemma per field per update of State, so that no later proof unfolds a record update. -/

namespace Sys2Proof.Machine

@[simp] theorem State.withStore_eng (s : State) (st : Store) : (s.withStore st).eng = s.eng := rfl
@[simp] theorem State.withStore_store (s : State) (st : Store) : (s.withStore st).store = st := rfl
@[simp] theorem State.withStore_parked (s : State) (st : Store) : (s.withStore st).parked = s.parked := rfl
@[simp] theorem State.withStore_others (s : State) (st : Store) : (s.withStore st).others = s.others := rfl
@[simp] theorem State.withStore_host (s : State) (st : Store) : (s.withStore st).host = s.host := rfl
@[simp] theorem State.withStore_answer (s : State) (st : Store) : (s.withStore st).answer = s.answer := rfl

@[simp] theorem State.moveTo_cur (s : State) (c : Cursor) : (s.moveTo c).eng.cur = c := rfl
@[simp] theorem State.moveTo_cmd (s : State) (c : Cursor) : (s.moveTo c).eng.cmd = s.eng.cmd := rfl
@[simp] theorem State.moveTo_status (s : State) (c : Cursor) : (s.moveTo c).eng.status = s.eng.status := rfl
@[simp] theorem State.moveTo_opa (s : State) (c : Cursor) : (s.moveTo c).eng.opa = s.eng.opa := rfl
@[simp] theorem State.moveTo_opb (s : State) (c : Cursor) : (s.moveTo c).eng.opb = s.eng.opb := rfl
@[simp] theorem State.moveTo_res0 (s : State) (c : Cursor) : (s.moveTo c).eng.res0 = s.eng.res0 := rfl
@[simp] theorem State.moveTo_res1 (s : State) (c : Cursor) : (s.moveTo c).eng.res1 = s.eng.res1 := rfl
@[simp] theorem State.moveTo_store (s : State) (c : Cursor) : (s.moveTo c).store = s.store := rfl
@[simp] theorem State.moveTo_parked (s : State) (c : Cursor) : (s.moveTo c).parked = s.parked := rfl
@[simp] theorem State.moveTo_others (s : State) (c : Cursor) : (s.moveTo c).others = s.others := rfl
@[simp] theorem State.moveTo_host (s : State) (c : Cursor) : (s.moveTo c).host = s.host := rfl
@[simp] theorem State.moveTo_answer (s : State) (c : Cursor) : (s.moveTo c).answer = s.answer := rfl

@[simp] theorem State.done_cur (s : State) (r0 r1 : Word) : (s.done r0 r1).eng.cur = s.eng.cur := rfl
@[simp] theorem State.done_cmd (s : State) (r0 r1 : Word) : (s.done r0 r1).eng.cmd = s.eng.cmd := rfl
@[simp] theorem State.done_status (s : State) (r0 r1 : Word) : (s.done r0 r1).eng.status = 1 := rfl
@[simp] theorem State.done_opa (s : State) (r0 r1 : Word) : (s.done r0 r1).eng.opa = s.eng.opa := rfl
@[simp] theorem State.done_opb (s : State) (r0 r1 : Word) : (s.done r0 r1).eng.opb = s.eng.opb := rfl
@[simp] theorem State.done_res0 (s : State) (r0 r1 : Word) : (s.done r0 r1).eng.res0 = r0 := rfl
@[simp] theorem State.done_res1 (s : State) (r0 r1 : Word) : (s.done r0 r1).eng.res1 = r1 := rfl
@[simp] theorem State.done_store (s : State) (r0 r1 : Word) : (s.done r0 r1).store = s.store := rfl
@[simp] theorem State.done_parked (s : State) (r0 r1 : Word) : (s.done r0 r1).parked = s.parked := rfl
@[simp] theorem State.done_others (s : State) (r0 r1 : Word) : (s.done r0 r1).others = s.others := rfl
@[simp] theorem State.done_host (s : State) (r0 r1 : Word) : (s.done r0 r1).host = s.host := rfl
@[simp] theorem State.done_answer (s : State) (r0 r1 : Word) : (s.done r0 r1).answer = s.answer := rfl

@[simp] theorem State.fail_cur (s : State) (c : Cursor) (e : ErrClass) : (s.fail c e).eng.cur = c := rfl
@[simp] theorem State.fail_cmd (s : State) (c : Cursor) (e : ErrClass) : (s.fail c e).eng.cmd = s.eng.cmd := rfl
@[simp] theorem State.fail_status (s : State) (c : Cursor) (e : ErrClass) : (s.fail c e).eng.status = statusFail e := rfl
@[simp] theorem State.fail_opa (s : State) (c : Cursor) (e : ErrClass) : (s.fail c e).eng.opa = s.eng.opa := rfl
@[simp] theorem State.fail_opb (s : State) (c : Cursor) (e : ErrClass) : (s.fail c e).eng.opb = s.eng.opb := rfl
@[simp] theorem State.fail_res0 (s : State) (c : Cursor) (e : ErrClass) : (s.fail c e).eng.res0 = 0 := rfl
@[simp] theorem State.fail_res1 (s : State) (c : Cursor) (e : ErrClass) : (s.fail c e).eng.res1 = 0 := rfl
@[simp] theorem State.fail_store (s : State) (c : Cursor) (e : ErrClass) : (s.fail c e).store = s.store := rfl
@[simp] theorem State.fail_parked (s : State) (c : Cursor) (e : ErrClass) : (s.fail c e).parked = s.parked := rfl
@[simp] theorem State.fail_others (s : State) (c : Cursor) (e : ErrClass) : (s.fail c e).others = s.others := rfl
@[simp] theorem State.fail_host (s : State) (c : Cursor) (e : ErrClass) : (s.fail c e).host = s.host := rfl
@[simp] theorem State.fail_answer (s : State) (c : Cursor) (e : ErrClass) : (s.fail c e).answer = s.answer := rfl

@[simp] theorem State.taken_eng (s : State) : s.taken.eng = s.eng := rfl
@[simp] theorem State.taken_store (s : State) : s.taken.store = s.store := rfl
@[simp] theorem State.taken_parked (s : State) : s.taken.parked = s.parked := rfl
@[simp] theorem State.taken_others (s : State) : s.taken.others = s.others := rfl
@[simp] theorem State.taken_host (s : State) : s.taken.host = s.host.tail := rfl
@[simp] theorem State.taken_answer (s : State) : s.taken.answer = .nothing := rfl

@[simp] theorem State.latchCmd_cur (s : State) (w : CmdWord) : (s.latchCmd w).eng.cur = s.eng.cur := rfl
@[simp] theorem State.latchCmd_cmd (s : State) (w : CmdWord) : (s.latchCmd w).eng.cmd = w := rfl
@[simp] theorem State.latchCmd_status (s : State) (w : CmdWord) : (s.latchCmd w).eng.status = s.eng.status := rfl
@[simp] theorem State.latchCmd_opa (s : State) (w : CmdWord) : (s.latchCmd w).eng.opa = s.eng.opa := rfl
@[simp] theorem State.latchCmd_opb (s : State) (w : CmdWord) : (s.latchCmd w).eng.opb = s.eng.opb := rfl
@[simp] theorem State.latchCmd_res0 (s : State) (w : CmdWord) : (s.latchCmd w).eng.res0 = s.eng.res0 := rfl
@[simp] theorem State.latchCmd_res1 (s : State) (w : CmdWord) : (s.latchCmd w).eng.res1 = s.eng.res1 := rfl
@[simp] theorem State.latchCmd_store (s : State) (w : CmdWord) : (s.latchCmd w).store = s.store := rfl
@[simp] theorem State.latchCmd_parked (s : State) (w : CmdWord) : (s.latchCmd w).parked = s.parked := rfl
@[simp] theorem State.latchCmd_others (s : State) (w : CmdWord) : (s.latchCmd w).others = s.others := rfl
@[simp] theorem State.latchCmd_host (s : State) (w : CmdWord) : (s.latchCmd w).host = s.host := rfl
@[simp] theorem State.latchCmd_answer (s : State) (w : CmdWord) : (s.latchCmd w).answer = s.answer := rfl

@[simp] theorem State.built_eng (s : State) (st : Store) : (s.built st).eng = Engine.reset := rfl
@[simp] theorem State.built_store (s : State) (st : Store) : (s.built st).store = st := rfl
@[simp] theorem State.built_parked (s : State) (st : Store) : (s.built st).parked = [] := rfl
@[simp] theorem State.built_others (s : State) (st : Store) : (s.built st).others = [] := rfl
@[simp] theorem State.built_host (s : State) (st : Store) : (s.built st).host = s.host := rfl
@[simp] theorem State.built_answer (s : State) (st : Store) : (s.built st).answer = s.answer := rfl

/-- A failure at the entry cursor, over whatever store the command leaves, is `State.failed`. -/
theorem State.withStore_fail (s : State) (st : Store) (e : ErrClass) : (s.withStore st).fail s.eng.cur e = s.failed st e := rfl

/-- A failure without a store access is `State.failed` over the same store. -/
theorem State.fail_eq_failed (s : State) (e : ErrClass) : s.fail s.eng.cur e = s.failed s.store e := rfl

/-- A success that moves the cursor is `State.succeeded`. -/
theorem State.moveTo_done (s : State) (st : Store) (c : Cursor) (r0 r1 : Word) :
    ((s.withStore st).moveTo c).done r0 r1 = s.succeeded st c r0 r1 := rfl

/-- A success that keeps the cursor is `State.succeeded` at the entry cursor. -/
theorem State.withStore_done (s : State) (st : Store) (r0 r1 : Word) :
    (s.withStore st).done r0 r1 = s.succeeded st s.eng.cur r0 r1 := rfl

end Sys2Proof.Machine
end

