-- ==== Sys2Proof/Laws/Store.lean ====
section
/-! SUPPORT. The memory port: what `At` and `Put` answer and leave, on both stores (20_memory.md R56 to R74). -/

namespace Sys2Proof.Machine

/-! ### Same content, same shape -/

theorem Store.sameContent_refl (st : Store) : st.sameContent st := by
  cases st <;> simp [Store.sameContent]

theorem Store.sameContent_trans {a b c : Store} (h : a.sameContent b) (h' : b.sameContent c) : a.sameContent c := by
  cases a <;> cases b <;> cases c <;> simp_all [Store.sameContent]

theorem Store.sameContent_content {a b : Store} (h : a.sameContent b) : b.content = a.content := by
  cases a <;> cases b <;> simp_all [Store.sameContent, Store.content]

theorem Store.sameContent_length {a b : Store} (h : a.sameContent b) : b.length = a.length := by
  cases a <;> cases b <;> simp_all [Store.sameContent, Store.length]

theorem Store.sameContent_byteAt {a b : Store} (h : a.sameContent b) (o : Nat) : b.byteAt o = a.byteAt o := by
  rw [Store.byteAt, Store.byteAt, Store.sameContent_content h, Store.sameContent_length h]

theorem Store.sameShape_refl (st : Store) : st.sameShape st := by
  cases st <;> simp [Store.sameShape]

theorem Store.sameContent_sameShape {a b : Store} (h : a.sameContent b) : a.sameShape b := by
  cases a <;> cases b <;> simp_all [Store.sameContent, Store.sameShape]

theorem Store.sameShape_trans {a b c : Store} (h : a.sameShape b) (h' : b.sameShape c) : a.sameShape c := by
  cases a <;> cases b <;> cases c <;> simp_all [Store.sameShape]

theorem Store.sameShape_length {a b : Store} (h : a.sameShape b) : b.length = a.length := by
  cases a <;> cases b <;> simp_all [Store.sameShape, Store.length]

theorem Memory.fits_iff {m : Memory} {n : Nat} :
    m.fits n = true ↔ m.wf = true ∧ m.below n = true ∧ n ≤ Config.maxOffset := by
  simp [Memory.fits, and_assoc]

theorem Store.wf_slice {st : SliceStore} : (Store.slice st).wf = true ↔ st.buf.fits st.capacity = true := by
  simp [Store.wf]

theorem Store.wf_windowed {w : WindowedStore} :
    (Store.windowed w).wf = true ↔
      w.stream.bytes.fits w.stream.length = true ∧ 1 ≤ w.windowSize ∧ w.window.length ≤ w.windowSize ∧
        w.bufferIndex + w.window.length ≤ Config.maxOffset := by
  simp [Store.wf, and_assoc]

theorem Store.content_wf {st : Store} (h : st.wf = true) : st.content.wf = true := by
  cases st with
  | slice st => exact (Memory.fits_iff.mp (Store.wf_slice.mp h)).1
  | windowed w => exact (Memory.fits_iff.mp (Store.wf_windowed.mp h).1).1

theorem Store.length_le {st : Store} (h : st.wf = true) : st.length ≤ Config.maxOffset := by
  cases st with
  | slice st => exact (Memory.fits_iff.mp (Store.wf_slice.mp h)).2.2
  | windowed w => exact (Memory.fits_iff.mp (Store.wf_windowed.mp h).1).2.2

theorem Store.quiet_iff {st : Store} : st.quiet = true ↔ st.wf = true ∧ st.coherent = true ∧ st.faultFree = true := by
  simp [Store.quiet, and_assoc]

/-! ### The stream -/

/-- A draw changes only the oracle's position. -/
theorem Stream.draw_same (st : Stream) :
    st.draw.2.length = st.length ∧ st.draw.2.bytes = st.bytes ∧ st.draw.2.gapFill = st.gapFill := by
  unfold Stream.draw
  split <;> simp

theorem Stream.draw_faultFree {st : Stream} (h : st.oracle = .faultFree) : st.draw = (none, st) := by
  unfold Stream.draw
  rw [h]

@[simp] theorem Stream.length_slice (st : Stream) (a m : Nat) : (st.slice a m).length = min m (st.length - a) := by
  simp [Stream.slice]

theorem Stream.fits_grow {st : Stream} (h : st.bytes.fits st.length = true) {n : Nat} (hn : n ≤ Config.maxOffset) (cs : List Byte) :
    (st.grow n cs).bytes.fits (st.grow n cs).length = true := by
  rw [Memory.fits_iff] at h ⊢
  refine ⟨Memory.wf_writeBytes h.1 _ _, ?_, ?_⟩
  · apply Memory.below_writeBytes
    · exact Memory.below_mono h.2.1 (le_max_left _ _)
    · simp only [List.length_append, List.length_take, List.length_replicate, Stream.grow]
      omega
  · simp only [Stream.grow]
    omega

theorem Stream.read_grow {st : Stream} (h : st.bytes.wf = true) (n : Nat) (cs : List Byte) {o : Nat} (ho : o < st.length) :
    (st.grow n cs).bytes.read o = st.bytes.read o := by
  simp only [Stream.grow]
  rw [Memory.read_writeBytes h, if_neg (by omega)]

theorem Stream.grow_of_le {st : Stream} {n : Nat} (h : n ≤ st.length) (cs : List Byte) : st.grow n cs = st := by
  cases st
  simp only [Stream.grow, Stream.mk.injEq, and_true] at h ⊢
  rw [Nat.sub_eq_zero_of_le h]
  simp [Memory.writeBytes, h]

theorem Stream.fits_stored {st : Stream} (h : st.bytes.fits st.length = true) {a : Nat} {bs : List Byte}
    (ha : a + bs.length ≤ Config.maxOffset) : (st.stored a bs).bytes.fits (st.stored a bs).length = true := by
  have hg := Memory.fits_iff.mp (Stream.fits_grow h (n := a) (by omega) [])
  rw [Memory.fits_iff]
  simp only [Stream.stored]
  refine ⟨Memory.wf_writeBytes hg.1 _ _, ?_, ?_⟩
  · exact Memory.below_writeBytes (Memory.below_mono hg.2.1 (le_max_left _ _)) _ (le_max_right _ _)
  · have := hg.2.2
    omega

/-- A successful write inside the stream stores the bytes and nothing else (20_memory.md R70). -/
theorem Stream.stored_inside {st : Stream} {a : Nat} {bs : List Byte} (h : a + bs.length ≤ st.length) :
    st.stored a bs = { st with bytes := st.bytes.writeBytes a bs } := by
  rw [Stream.stored, Stream.grow_of_le (by omega)]
  simp [h]

theorem Stream.fits_failed {st : Stream} (h : st.bytes.fits st.length = true) (a : Nat) (bs : List Byte) (d : Config.Draw) :
    (st.failed a bs d).bytes.fits (st.failed a bs d).length = true := by
  have hg := Stream.fits_grow h (n := min Config.maxOffset (min (max st.length (a + bs.length)) (st.length + d.size)))
    (min_le_left _ _) d.created
  rw [Memory.fits_iff] at hg ⊢
  exact ⟨Memory.wf_writeSome hg.1 _ _ _, Memory.below_writeSome hg.2.1 _ _ _, hg.2.2⟩

/-! ### At -/

/-- What `At` of a `WINDOWED` store does: a hit, a failed reload, or a reload answered from the new window (20_memory.md R63, R64). -/
theorem WindowedStore.lookup_cases (w : WindowedStore) (o : Nat) :
    (∃ b, w.hit o = some b ∧ w.lookup o = (.ok b, w)) ∨
    (∃ d, w.hit o = none ∧ w.stream.draw.1 = some d ∧
      w.lookup o = (.error .io, { w with stream := w.stream.draw.2, window := [] })) ∨
    (w.hit o = none ∧ w.stream.draw.1 = none ∧ ∃ w',
      w' = { w with stream := w.stream.draw.2, bufferIndex := o - w.windowSize / 2,
                    window := w.stream.draw.2.slice (o - w.windowSize / 2) w.windowSize } ∧
      w.lookup o = ((match w'.hit o with | some b => .ok b | none => .error .oob), w')) := by
  rcases hd : w.stream.draw with ⟨d, str⟩
  cases hh : w.hit o with
  | some b => exact .inl ⟨b, rfl, by rw [WindowedStore.lookup, hh]⟩
  | none =>
    cases d with
    | some d =>
      exact .inr (.inl ⟨d, rfl, rfl, by
        rw [WindowedStore.lookup, hh]; simp [WindowedStore.reload, hd, WindowedStore.invalidate]⟩)
    | none =>
      refine .inr (.inr ⟨rfl, rfl, _, rfl, ?_⟩)
      rw [WindowedStore.lookup, hh]
      simp only [WindowedStore.reload, hd]
      split <;> simp_all

/-- `At` never changes the store's content, length or configuration (20_memory.md R81). -/
theorem Store.sameContent_lookup (st : Store) (o : Nat) : st.sameContent (st.lookup o).2 := by
  cases st with
  | slice st => simp [Store.lookup, Store.sameContent]
  | windowed w =>
    have hs := w.stream.draw_same
    rcases w.lookup_cases o with ⟨b, _, h⟩ | ⟨d, _, _, h⟩ | ⟨_, _, w', rfl, h⟩ <;>
      simp [Store.lookup, h, Store.sameContent, hs]

theorem WindowedStore.hit_lt {w : WindowedStore} {o : Nat} {b : Byte} (h : w.hit o = some b) :
    w.bufferIndex ≤ o ∧ o < w.bufferIndex + w.window.length := by
  unfold WindowedStore.hit at h
  split_ifs at h with h1
  have := (List.getElem?_eq_some_iff.mp h).1
  omega

theorem Store.wf_lookup {st : Store} (h : st.wf = true) {o : Nat} (ho : o ≤ Config.maxOffset) : (st.lookup o).2.wf = true := by
  cases st with
  | slice st => exact h
  | windowed w =>
    have hs := w.stream.draw_same
    have hw := Store.wf_windowed.mp h
    have hl := (Memory.fits_iff.mp hw.1).2.2
    rcases w.lookup_cases o with ⟨b, _, e⟩ | ⟨d, _, _, e⟩ | ⟨_, _, w', rfl, e⟩
    · simpa [Store.lookup, e] using h
    · simp only [Store.lookup, e, Store.wf_windowed, hs, List.length_nil]
      exact ⟨hw.1, hw.2.1, by omega, by omega⟩
    · simp only [Store.lookup, e, Store.wf_windowed, hs, Stream.length_slice]
      exact ⟨hw.1, hw.2.1, by omega, by omega⟩

/-- An offset `At` answers is below the largest offset. -/
theorem Store.lookup_ok_lt {st : Store} (h : st.wf = true) {o : Nat} (ho : o ≤ Config.maxOffset) {b : Byte}
    (hb : (st.lookup o).1 = .ok b) : o < Config.maxOffset := by
  cases st with
  | slice st =>
    have := (Memory.fits_iff.mp (Store.wf_slice.mp h)).2.2
    simp only [Store.lookup, SliceStore.lookup] at hb
    split_ifs at hb with h1
    omega
  | windowed w =>
    have hwf := Store.wf_lookup h ho
    rcases w.lookup_cases o with ⟨b', hh, e⟩ | ⟨d, _, _, e⟩ | ⟨_, _, w', hw', e⟩
    · have := WindowedStore.hit_lt hh
      have := (Store.wf_windowed.mp h).2.2.2
      omega
    · simp [Store.lookup, e] at hb
    · simp only [Store.lookup, e] at hb hwf
      cases hh : w'.hit o with
      | none => simp [hh] at hb
      | some b' =>
        have := WindowedStore.hit_lt hh
        have := (Store.wf_windowed.mp hwf).2.2.2
        omega

theorem Store.coherent_windowed {w : WindowedStore} :
    (Store.windowed w).coherent = true ↔
      w.window = [] ∨ (w.bufferIndex + w.window.length ≤ w.stream.length ∧
        w.window = w.stream.bytes.readBytes w.bufferIndex w.window.length) := by
  simp [Store.coherent]

/-- A window hit of a coherent store is the stream's byte (20_memory.md R73). -/
theorem WindowedStore.hit_coherent {w : WindowedStore} (h : (Store.windowed w).coherent = true) {o : Nat} {b : Byte}
    (hb : w.hit o = some b) : o < w.stream.length ∧ b = w.stream.bytes.read o := by
  have hlt := WindowedStore.hit_lt hb
  rcases Store.coherent_windowed.mp h with h0 | ⟨h1, h2⟩
  · simp [WindowedStore.hit, h0] at hb
  · refine ⟨by omega, ?_⟩
    unfold WindowedStore.hit at hb
    rw [if_pos hlt.1, h2, Memory.getElem?_readBytes, if_pos (by omega), show w.bufferIndex + (o - w.bufferIndex) = o by omega] at hb
    simpa using hb.symm

/-- On a coherent, fault-free store `At` answers the store's byte or `OOB`, and the store stays so (20_memory.md R65, R73). -/
theorem Store.lookup_quiet {st : Store} (h : st.quiet = true) {o : Nat} (ho : o ≤ Config.maxOffset) :
    (st.lookup o).1 = (match st.byteAt o with | some b => .ok b | none => .error .oob) ∧ (st.lookup o).2.quiet = true := by
  obtain ⟨hwf, hco, hff⟩ := Store.quiet_iff.mp h
  cases st with
  | slice st =>
    refine ⟨?_, h⟩
    simp only [Store.lookup, SliceStore.lookup, Store.byteAt, Store.length, Store.content]
    by_cases ho' : o < st.capacity <;> simp [ho']
  | windowed w =>
    have hor : w.stream.oracle = .faultFree := by simpa [Store.faultFree] using hff
    have hd := Stream.draw_faultFree hor
    have hwf' := Store.wf_lookup hwf ho
    have hw := Store.wf_windowed.mp hwf
    rcases w.lookup_cases o with ⟨b, hh, e⟩ | ⟨d, _, hdr, e⟩ | ⟨hno, _, w', hw', e⟩
    · have := WindowedStore.hit_coherent hco hh
      simp [Store.lookup, e, Store.byteAt, Store.length, Store.content, this, h]
    · simp [hd] at hdr
    · rw [hd] at hw'
      simp only [Store.lookup, e] at hwf' ⊢
      have hco' : (Store.windowed w').coherent = true := by
        rw [Store.coherent_windowed, hw']
        by_cases hs : o - w.windowSize / 2 ≤ w.stream.length
        · right
          simp only [Stream.length_slice]
          exact ⟨by omega, rfl⟩
        · left
          apply List.eq_nil_of_length_eq_zero
          simp only [Stream.length_slice]; omega
      have hff' : (Store.windowed w').faultFree = true := by simp [Store.faultFree, hw', hor]
      refine ⟨?_, Store.quiet_iff.mpr ⟨hwf', hco', hff'⟩⟩
      have hstr : w'.stream = w.stream := by rw [hw']
      cases hh : w'.hit o with
      | some b =>
        have := WindowedStore.hit_coherent hco' hh
        rw [hstr] at this
        simp [Store.byteAt, Store.length, Store.content, this]
      | none =>
        have hout : ¬ o < w.stream.length := by
          intro hlt
          simp only [WindowedStore.hit, hw'] at hh
          rw [if_pos (by omega), Stream.slice, Memory.getElem?_readBytes, if_pos (by omega)] at hh
          simp at hh
        simp [Store.byteAt, Store.length, hout]

/-! ### Put -/

@[simp] theorem length_patchWindow (o : Nat) (bs : List Byte) (a : Nat) (win : List Byte) :
    (patchWindow o bs a win).length = win.length := by
  induction win generalizing a with
  | nil => rfl
  | cons b win ih => simp [patchWindow, ih]

theorem getElem?_patchWindow (o : Nat) (bs : List Byte) (a : Nat) (win : List Byte) (i : Nat) :
    (patchWindow o bs a win)[i]? = (win[i]?).map fun b => if o ≤ a + i then (bs[a + i - o]?).getD b else b := by
  induction win generalizing a i with
  | nil => simp [patchWindow]
  | cons b win ih =>
    cases i with
    | zero => simp [patchWindow]
    | succ i =>
      simp only [patchWindow, List.getElem?_cons_succ, ih, show a + 1 + i = a + (i + 1) by omega]

/-- The window of a coherent store is patched to what the stream holds after the write (20_memory.md R68). -/
theorem patchWindow_readBytes {m : Memory} (hw : m.wf = true) (o : Nat) (bs : List Byte) (a n : Nat) :
    patchWindow o bs a (m.readBytes a n) = (m.writeBytes o bs).readBytes a n := by
  apply List.ext_getElem?
  intro i
  rw [getElem?_patchWindow, Memory.getElem?_readBytes, Memory.getElem?_readBytes]
  by_cases hi : i < n
  · rw [if_pos hi, if_pos hi, Option.map_some, Memory.read_writeBytes hw]
  · rw [if_neg hi, if_neg hi, Option.map_none]

/-- `Put` of bytes that all lie in a quiet store stores them, and the store stays quiet (20_memory.md R59, R67, R68, R73). -/
theorem Store.put_quiet {st : Store} (h : st.quiet = true) {bs : List Byte} {o : Nat} (ho : o + bs.length ≤ st.length) :
    (st.put bs o).1 = .stored ∧ (st.put bs o).2.quiet = true ∧ st.sameShape (st.put bs o).2 ∧
      (st.put bs o).2.content = st.content.writeBytes o bs := by
  obtain ⟨hwf, hco, hff⟩ := Store.quiet_iff.mp h
  cases st with
  | slice st =>
    simp only [Store.length] at ho
    have hf := Memory.fits_iff.mp (Store.wf_slice.mp hwf)
    by_cases hz : bs.length = 0
    · have : bs = [] := List.eq_nil_of_length_eq_zero hz
      subst this
      simp [Store.put, SliceStore.put, Store.sameShape, Store.content, Memory.writeBytes, h]
    · simp only [Store.put, SliceStore.put, if_neg hz, if_neg (Nat.not_lt.mpr ho), Store.sameShape, Store.content, and_true,
        true_and]
      rw [Store.quiet_iff, Store.wf_slice, Memory.fits_iff]
      exact ⟨⟨Memory.wf_writeBytes hf.1 _ _, Memory.below_writeBytes hf.2.1 _ ho, hf.2.2⟩, rfl, rfl⟩
  | windowed w =>
    simp only [Store.length] at ho
    have hor : w.stream.oracle = .faultFree := by simpa [Store.faultFree] using hff
    have hw := Store.wf_windowed.mp hwf
    have hf := Memory.fits_iff.mp hw.1
    by_cases hz : bs.length = 0
    · have : bs = [] := List.eq_nil_of_length_eq_zero hz
      subst this
      simp [Store.put, WindowedStore.put, Store.sameShape, Store.content, Memory.writeBytes, h]
    · have hput : w.put bs o = (.stored, { w with
          stream := { w.stream with bytes := w.stream.bytes.writeBytes o bs },
          window := patchWindow o bs w.bufferIndex w.window }) := by
        have hmax : o + bs.length ≤ Config.maxOffset := ho.trans hf.2.2
        simp [WindowedStore.put, hz, Stream.write, Stream.passed, hmax, Stream.draw_faultFree hor, Stream.stored_inside ho]
      simp only [Store.put, hput, Store.sameShape, Store.content, and_true, true_and]
      rw [Store.quiet_iff, Store.wf_windowed, Memory.fits_iff, Store.coherent_windowed]
      refine ⟨⟨⟨Memory.wf_writeBytes hf.1 _ _, Memory.below_writeBytes hf.2.1 _ ho, hf.2.2⟩, ?_⟩, ?_, ?_⟩
      · simpa using hw.2
      · rcases Store.coherent_windowed.mp hco with h0 | ⟨h1, h2⟩
        · left; simp [h0, patchWindow]
        · right
          refine ⟨by simpa using h1, ?_⟩
          simp only [length_patchWindow]
          conv_lhs => rw [h2]
          exact patchWindow_readBytes hf.1 _ _ _ _
      · simp [Store.faultFree, hor]

/-- A write that the oracle lets pass is stored, or fails because its range passes MAX_OFFSET (20_memory.md R70; log entry 7). -/
theorem Stream.passed_cases (st : Stream) (a : Nat) (bs : List Byte) :
    (a + bs.length ≤ Config.maxOffset ∧ st.passed a bs = (true, st.stored a bs)) ∨
    (Config.maxOffset < a + bs.length ∧
      st.passed a bs = (false, { st with overlong := st.overlong + 1 }.failed a bs (Config.freeOverlong st.overlong))) := by
  unfold Stream.passed
  split_ifs with h
  · exact .inl ⟨h, rfl⟩
  · exact .inr ⟨Nat.lt_of_not_le h, rfl⟩

theorem Stream.fits_passed {st : Stream} (h : st.bytes.fits st.length = true) (a : Nat) (bs : List Byte) :
    (st.passed a bs).2.bytes.fits (st.passed a bs).2.length = true := by
  rcases st.passed_cases a bs with ⟨ha, e⟩ | ⟨_, e⟩ <;> rw [e]
  · exact Stream.fits_stored h ha
  · exact Stream.fits_failed h a bs _

/-- A stream write fails, by the oracle or past MAX_OFFSET, with some draw over the stream's bytes as they were, or it stores
every byte (20_memory.md R69, R70; log entry 7). -/
theorem Stream.write_cases (st : Stream) (a : Nat) (bs : List Byte) :
    (∃ (d : Config.Draw) (str : Stream), (st.draw.1 = some d ∨ st.draw.1 = none ∧ Config.maxOffset < a + bs.length) ∧
      str.length = st.length ∧ str.bytes = st.bytes ∧ st.write a bs = (false, str.failed a bs d)) ∨
    (st.draw.1 = none ∧ a + bs.length ≤ Config.maxOffset ∧ st.write a bs = (true, st.draw.2.stored a bs)) := by
  have hs := st.draw_same
  rcases hd : st.draw with ⟨d, str⟩
  rw [hd] at hs
  cases d with
  | some d => exact .inl ⟨d, str, .inl rfl, hs.1, hs.2.1, by rw [Stream.write, hd]⟩
  | none =>
    rcases str.passed_cases a bs with ⟨h, e⟩ | ⟨h, e⟩
    · exact .inr ⟨rfl, h, by rw [Stream.write, hd]; exact e⟩
    · exact .inl ⟨Config.freeOverlong str.overlong, { str with overlong := str.overlong + 1 }, .inr ⟨rfl, h⟩, hs.1, hs.2.1, by rw [Stream.write, hd]; exact e⟩

theorem Store.wf_put {st : Store} (h : st.wf = true) (bs : List Byte) (o : Nat) : (st.put bs o).2.wf = true := by
  cases st with
  | slice st =>
    have hf := Memory.fits_iff.mp (Store.wf_slice.mp h)
    simp only [Store.put, SliceStore.put]
    split_ifs with h1 h2
    · exact h
    · exact h
    · rw [Store.wf_slice, Memory.fits_iff]
      exact ⟨Memory.wf_writeBytes hf.1 _ _, Memory.below_writeBytes hf.2.1 _ (by omega), hf.2.2⟩
  | windowed w =>
    have hw := Store.wf_windowed.mp h
    have hs := w.stream.draw_same
    have hfit : w.stream.draw.2.bytes.fits w.stream.draw.2.length = true := by rw [hs.1, hs.2.1]; exact hw.1
    simp only [Store.put, WindowedStore.put]
    split_ifs with h1
    · exact h
    · rcases w.stream.write_cases o bs with ⟨d, str, _, hl, hb, e⟩ | ⟨_, ho, e⟩
      · simp only [e, WindowedStore.invalidate]
        rw [Store.wf_windowed]
        exact ⟨Stream.fits_failed (by rw [hl, hb]; exact hw.1) _ _ _, hw.2.1, Nat.zero_le _, by simp only [List.length_nil]; omega⟩
      · simp only [e]
        rw [Store.wf_windowed]
        exact ⟨Stream.fits_stored hfit ho, hw.2.1, by simpa using hw.2.2⟩

theorem Store.wf_windowReset {st : Store} (h : st.wf = true) : st.windowReset.wf = true := by
  cases st with
  | slice st => exact h
  | windowed w =>
    have hw := Store.wf_windowed.mp h
    exact Store.wf_windowed.mpr ⟨hw.1, hw.2.1, Nat.zero_le _, Nat.zero_le _⟩

theorem Store.sameContent_windowReset (st : Store) : st.sameContent st.windowReset := by
  cases st <;> simp [Store.sameContent, Store.windowReset]

/-- A `Put` that is rejected changes nothing (20_memory.md R59). -/
theorem Store.put_rejected {st : Store} {bs : List Byte} {o : Nat} (h : (st.put bs o).1 = .rejected) : (st.put bs o).2 = st := by
  cases st with
  | slice st =>
    simp only [Store.put, SliceStore.put] at h ⊢
    (split_ifs at h ⊢; simp_all)
  | windowed w =>
    simp only [Store.put, WindowedStore.put] at h ⊢
    split_ifs at h ⊢ with h1
    rcases w.stream.write_cases o bs with ⟨_, _, _, _, _, e⟩ | ⟨_, _, e⟩ <;> simp [e] at h

/-- However a `Put` ends, the bytes of the old store outside its range keep their values (20_memory.md R59, R67, R69). -/
theorem Store.put_frame {st : Store} (h : st.wf = true) (bs : List Byte) (o : Nat) {x : Nat} (hx : x < st.length)
    (hout : x < o ∨ o + bs.length ≤ x) : (st.put bs o).2.content.read x = st.content.read x := by
  cases st with
  | slice st =>
    have hf := Memory.fits_iff.mp (Store.wf_slice.mp h)
    simp only [Store.put, SliceStore.put]
    split_ifs with h1 h2
    · rfl
    · rfl
    · simp only [Store.content]
      rw [Memory.read_writeBytes hf.1]
      split_ifs with h3
      · rw [List.getElem?_eq_none (by omega)]; rfl
      · rfl
  | windowed w =>
    have hw := Store.wf_windowed.mp h
    have hf := Memory.fits_iff.mp hw.1
    have hs := w.stream.draw_same
    simp only [Store.length] at hx
    have hwf : w.stream.draw.2.bytes.wf = true := by rw [hs.2.1]; exact hf.1
    have hx' : x < w.stream.draw.2.length := by rw [hs.1]; exact hx
    simp only [Store.put, WindowedStore.put]
    split_ifs with h1
    · rfl
    · rcases w.stream.write_cases o bs with ⟨d, str, _, hl, hb, e⟩ | ⟨_, _, e⟩
      · simp only [e, Store.content, WindowedStore.invalidate, Stream.failed]
        have hwf' : str.bytes.wf = true := by rw [hb]; exact hf.1
        rcases Memory.read_writeSome (Memory.wf_writeBytes hwf' _ _) o bs d.stored x with e' | ⟨h2, _, h3⟩
        · exact e'.trans ((Stream.read_grow hwf' _ _ (by rw [hl]; exact hx)).trans (by rw [hb]))
        · have := (List.getElem?_eq_some_iff.mp h3).1
          omega
      · simp only [e, Store.content, Stream.stored]
        rw [Memory.read_writeBytes (show (w.stream.draw.2.grow o []).bytes.wf = true from Memory.wf_writeBytes hwf _ _)]
        have hg := (Stream.read_grow hwf o [] hx').trans (by rw [hs.2.1])
        split_ifs with h3
        · rw [List.getElem?_eq_none (by omega)]
          exact hg
        · exact hg

end Sys2Proof.Machine
end

