-- ==== Sys2Proof/Laws/Walk.lean ====
section
/-! SUPPORT. What a walk, a field and a code word yield, on any store and on a quiet one (41_bit_extract.md R130, R136 to R138; 44_golomb_decode.md R170, R171). -/

namespace Sys2Proof.Machine

/-! ### The cursor and bit addresses -/

@[simp] theorem Cursor.address_cursorAt (p : Nat) : (cursorAt p).address = p := by
  simp only [Cursor.address, cursorAt]; omega

theorem cursorAt_address (c : Cursor) : cursorAt c.address = c := by
  obtain ⟨b, t, ht⟩ := c
  simp only [cursorAt, Cursor.address, Cursor.mk.injEq, Fin.mk.injEq]
  omega

theorem advance_eq (n : Nat) (c : Cursor) : advance n c = cursorAt (c.address + n) := rfl

@[simp] theorem advance_zero (c : Cursor) : advance 0 c = c := by
  rw [advance_eq, Nat.add_zero, cursorAt_address]

theorem byte_cursorAt_le {p n : Nat} (h : p ≤ 8 * n) : (cursorAt p).byte ≤ n := by
  simp only [cursorAt]; omega

theorem Store.hasBits_iff {st : Store} {c : Cursor} {n : Nat} (hn : n ≠ 0) :
    st.hasBits c n ↔ c.byte + bytesTouched c.bit n ≤ st.length := by
  have := c.bit.isLt
  simp only [Store.hasBits, hn, false_or, Cursor.address, bytesTouched]
  omega

theorem Store.hasBits_sameContent {a b : Store} (h : a.sameContent b) (c : Cursor) (n : Nat) : b.hasBits c n ↔ a.hasBits c n := by
  simp only [Store.hasBits, Store.sameContent_length h]

/-! ### Any store -/

theorem sameContent_walkFrom (k o : Nat) (st : Store) : st.sameContent (walkFrom k o st).2 := by
  induction k generalizing o st with
  | zero => exact st.sameContent_refl
  | succ k ih =>
    have h1 := st.sameContent_lookup o
    rw [walkFrom]
    rcases hl : st.lookup o with ⟨r, st'⟩
    rw [hl] at h1
    cases r with
    | error r => exact h1
    | ok b =>
      have h2 := ih (o + 1) st'
      rcases hw : walkFrom k (o + 1) st' with ⟨r, st''⟩
      rw [hw] at h2
      simp only
      rw [hw]
      cases r <;> exact Store.sameContent_trans h1 h2

theorem walkFrom_wf {k o : Nat} {st : Store} (h : st.wf = true) (ho : o ≤ Config.maxOffset) :
    (walkFrom k o st).2.wf = true ∧
      ∀ bs, (walkFrom k o st).1 = .ok bs → bs.length = k ∧ o + k ≤ Config.maxOffset := by
  induction k generalizing o st with
  | zero => exact ⟨h, fun bs hb => by simp only [walkFrom, Except.ok.injEq] at hb; subst hb; exact ⟨rfl, by omega⟩⟩
  | succ k ih =>
    have h1 := Store.wf_lookup h ho
    have h2 := fun b => Store.lookup_ok_lt h ho (b := b)
    rw [walkFrom]
    rcases hl : st.lookup o with ⟨r, st'⟩
    rw [hl] at h1 h2
    cases r with
    | error r => exact ⟨h1, fun bs hb => by simp at hb⟩
    | ok b =>
      have hlt := h2 b rfl
      have h3 := ih h1 (o := o + 1) (by omega)
      rcases hw : walkFrom k (o + 1) st' with ⟨r, st''⟩
      rw [hw] at h3
      simp only
      rw [hw]
      cases r with
      | error r => exact ⟨h3.1, fun bs hb => by simp at hb⟩
      | ok bs =>
        refine ⟨h3.1, fun bs' hb => ?_⟩
        simp only [Except.ok.injEq] at hb
        subst hb
        have := h3.2 bs rfl
        simp only [List.length_cons]
        omega

theorem sameContent_walk (n : Nat) (c : Cursor) (st : Store) : st.sameContent (walk n c st).2 := by
  rw [walk]
  split_ifs
  · exact st.sameContent_refl
  · exact sameContent_walkFrom _ _ _

/-- What a walk leaves on any well-formed store: a well-formed store, and after a success an end position in range. -/
theorem walk_wf {n : Nat} {c : Cursor} {st : Store} (h : st.wf = true) (hc : c.byte ≤ Config.maxOffset) :
    (walk n c st).2.wf = true ∧
      ∀ bs, (walk n c st).1 = .ok bs →
        bs.length = (if n = 0 then 0 else bytesTouched c.bit n) ∧ c.byte + bs.length ≤ Config.maxOffset ∧
          (advance n c).byte ≤ Config.maxOffset := by
  have hbit := c.bit.isLt
  rw [walk]
  split_ifs with hn
  · refine ⟨h, fun bs hb => ?_⟩
    simp only [Except.ok.injEq] at hb
    subst hb hn
    simpa using hc
  · have hw := walkFrom_wf (k := bytesTouched c.bit n) h hc
    refine ⟨hw.1, fun bs hb => ?_⟩
    have := hw.2 bs hb
    refine ⟨this.1, by omega, ?_⟩
    simp only [bytesTouched] at this
    simp only [advance]
    omega

theorem fetchField_eq (n : Nat) (c : Cursor) (st : Store) :
    fetchField n c st = ((match (walk n c st).1 with
      | .error r => .error (reasonClass r) | .ok bs => .ok (field bs c.bit n)), (walk n c st).2) := by
  rw [fetchField]
  rcases walk n c st with ⟨r, st'⟩
  cases r <;> rfl

theorem sameContent_fetchField (n : Nat) (c : Cursor) (st : Store) : st.sameContent (fetchField n c st).2 := by
  rw [fetchField_eq]
  exact sameContent_walk n c st

theorem fetchField_wf {n : Nat} {c : Cursor} {st : Store} (h : st.wf = true) (hc : c.byte ≤ Config.maxOffset) :
    (fetchField n c st).2.wf = true ∧
      ∀ v, (fetchField n c st).1 = .ok v → v < 2 ^ n ∧ (advance n c).byte ≤ Config.maxOffset := by
  have hw := walk_wf (n := n) h hc
  rw [fetchField_eq]
  refine ⟨hw.1, fun v hv => ?_⟩
  cases hr : (walk n c st).1 with
  | error r => simp [hr] at hv
  | ok bs =>
    simp only [hr, Except.ok.injEq] at hv
    exact ⟨hv ▸ field_lt bs _ n, (hw.2 bs hr).2.2⟩

theorem sameContent_scanZeros (fuel z : Nat) (c : Cursor) (st : Store) : st.sameContent (scanZeros fuel z c st).2 := by
  induction fuel generalizing z c st with
  | zero => exact st.sameContent_refl
  | succ fuel ih =>
    have h1 := sameContent_fetchField 1 c st
    rw [scanZeros]
    rcases hf : fetchField 1 c st with ⟨r, st'⟩
    rw [hf] at h1
    cases r with
    | error e => exact h1
    | ok v =>
      simp only
      split_ifs
      · exact h1
      · exact Store.sameContent_trans h1 (ih (z + 1) (advance 1 c) st')

theorem scanZeros_wf {fuel z : Nat} {c : Cursor} {st : Store} (h : st.wf = true) (hc : c.byte ≤ Config.maxOffset) :
    (scanZeros fuel z c st).2.wf = true ∧
      ∀ r, (scanZeros fuel z c st).1 = .ok r → r.1 < z + fuel ∧ r.2.byte ≤ Config.maxOffset := by
  induction fuel generalizing z c st with
  | zero => exact ⟨h, fun r hr => by simp [scanZeros] at hr⟩
  | succ fuel ih =>
    have h1 := fetchField_wf (n := 1) h hc
    rw [scanZeros]
    rcases hf : fetchField 1 c st with ⟨r, st'⟩
    rw [hf] at h1
    cases r with
    | error e => exact ⟨h1.1, fun r hr => by simp at hr⟩
    | ok v =>
      simp only
      split_ifs with hv
      · refine ⟨h1.1, fun r hr => ?_⟩
        simp only [Except.ok.injEq] at hr
        subst hr
        exact ⟨by simp, hc⟩
      · have := ih (z := z + 1) h1.1 (h1.2 v rfl).2
        exact ⟨this.1, fun r hr => by have := this.2 r hr; omega⟩

theorem sameContent_fetchCode (c : Cursor) (st : Store) : st.sameContent (fetchCode c st).2 := by
  have h1 := sameContent_scanZeros Config.zeroRunLimit 0 c st
  rw [fetchCode]
  rcases hs : scanZeros Config.zeroRunLimit 0 c st with ⟨r, st'⟩
  rw [hs] at h1
  cases r with
  | error e => exact h1
  | ok r =>
    obtain ⟨z, c'⟩ := r
    have h2 := sameContent_fetchField (z + 1) c' st'
    simp only
    rcases hf : fetchField (z + 1) c' st' with ⟨r, st''⟩
    rw [hf] at h2
    cases r <;> exact Store.sameContent_trans h1 h2

theorem fetchCode_wf {c : Cursor} {st : Store} (h : st.wf = true) (hc : c.byte ≤ Config.maxOffset) :
    (fetchCode c st).2.wf = true ∧
      ∀ r, (fetchCode c st).1 = .ok r → r.1 < 2 ^ 64 - 1 ∧ r.2.byte ≤ Config.maxOffset := by
  have h1 := scanZeros_wf (fuel := Config.zeroRunLimit) (z := 0) h hc
  rw [fetchCode]
  rcases hs : scanZeros Config.zeroRunLimit 0 c st with ⟨r, st'⟩
  rw [hs] at h1
  cases r with
  | error e => exact ⟨h1.1, fun r hr => by simp at hr⟩
  | ok r =>
    obtain ⟨z, c'⟩ := r
    have hz := h1.2 _ rfl
    have h2 := fetchField_wf (n := z + 1) (c := c') h1.1 hz.2
    simp only
    rcases hf : fetchField (z + 1) c' st' with ⟨r, st''⟩
    rw [hf] at h2
    cases r with
    | error e => exact ⟨h2.1, fun r hr => by simp at hr⟩
    | ok v =>
      refine ⟨h2.1, fun r hr => ?_⟩
      simp only [Except.ok.injEq] at hr
      subst hr
      have hv := h2.2 v rfl
      have : 2 ^ (z + 1) ≤ 2 ^ 64 := Nat.pow_le_pow_right (by decide) (by simp only [Config.zeroRunLimit] at hz; omega)
      exact ⟨by simp only; omega, hv.2⟩

/-! ### A quiet store -/

theorem walkFrom_quiet {k o : Nat} {st : Store} (h : st.quiet = true) (ho : o ≤ Config.maxOffset) :
    (walkFrom k o st).2.quiet = true ∧
      (walkFrom k o st).1 = if k = 0 ∨ o + k ≤ st.length then .ok (st.content.readBytes o k) else .error .oob := by
  induction k generalizing o st with
  | zero => exact ⟨h, by simp [walkFrom, Memory.readBytes]⟩
  | succ k ih =>
    have h1 := Store.lookup_quiet h ho
    have h2 := st.sameContent_lookup o
    have hmax := Store.length_le (Store.quiet_iff.mp h).1
    rw [walkFrom]
    rcases hl : st.lookup o with ⟨r, st'⟩
    rw [hl] at h1 h2
    simp only [Store.byteAt] at h1
    by_cases hlt : o < st.length
    · rw [if_pos hlt] at h1
      simp only at h1
      rw [h1.1]
      simp only
      have h3 := ih h1.2 (o := o + 1) (by omega)
      rw [Store.sameContent_length h2, Store.sameContent_content h2] at h3
      rcases hw : walkFrom k (o + 1) st' with ⟨r, st''⟩
      rw [hw] at h3
      simp only at h3
      rw [h3.2]
      by_cases hk : k = 0 ∨ o + 1 + k ≤ st.length
      · rw [if_pos hk, if_pos (by omega)]
        exact ⟨h3.1, rfl⟩
      · rw [if_neg hk, if_neg (by omega)]
        exact ⟨h3.1, rfl⟩
    · rw [if_neg hlt] at h1
      simp only at h1
      rw [h1.1, if_neg (by omega)]
      exact ⟨h1.2, rfl⟩

/-- A walk on a quiet store succeeds exactly when the bits remain (41_bit_extract.md R138). -/
theorem walk_quiet {n : Nat} {c : Cursor} {st : Store} (h : st.quiet = true) (hc : c.byte ≤ Config.maxOffset) :
    (walk n c st).2.quiet = true ∧
      (st.hasBits c n → (walk n c st).1 =
        .ok (st.content.readBytes c.byte (if n = 0 then 0 else bytesTouched c.bit n))) ∧
      (¬ st.hasBits c n → (walk n c st).1 = .error .oob) := by
  rw [walk]
  by_cases hn : n = 0
  · subst hn
    refine ⟨by simpa using h, fun _ => by simp [Memory.readBytes], fun hno => absurd (.inl rfl) hno⟩
  · rw [if_neg hn, if_neg hn, Store.hasBits_iff hn]
    have hk : bytesTouched c.bit n ≠ 0 := by simp only [bytesTouched]; omega
    have := walkFrom_quiet (k := bytesTouched c.bit n) h hc
    refine ⟨this.1, fun hb => ?_, fun hb => ?_⟩
    · rw [this.2, if_pos (.inr hb)]
    · rw [this.2, if_neg (by simp [hk, hb])]

/-- A field on a quiet store is the field of the store's content at the cursor, or too few bits remain
(41_bit_extract.md R136, R138; 00_scope.md R15). -/
theorem fetchField_quiet {n : Nat} {c : Cursor} {st : Store} (h : st.quiet = true) (hc : c.byte ≤ Config.maxOffset) :
    (fetchField n c st).2.quiet = true ∧
      (st.hasBits c n → (fetchField n c st).1 = .ok (st.content.fieldAt c.address n)) ∧
      (¬ st.hasBits c n → (fetchField n c st).1 = .error .insufficientData) := by
  have hw := walk_quiet (n := n) h hc
  rw [fetchField_eq]
  refine ⟨hw.1, fun hb => ?_, fun hb => ?_⟩
  · rw [hw.2.1 hb]
    simp only [Except.ok.injEq]
    by_cases hn : n = 0
    · subst hn; simp [field, Memory.fieldAt, Nat.mod_one]
    · rw [if_neg hn]
      exact field_readBytes _ (by have := c.bit.isLt; simp only [bytesTouched]; omega)
  · rw [hw.2.2 hb]; rfl

theorem Memory.fieldAt_succ_eq_zero {m : Memory} {p n : Nat} (h : m.fieldAt p (n + 1) = 0) :
    m.bitAt p = false ∧ m.fieldAt (p + 1) n = 0 := by
  rw [Nat.add_comm, Memory.fieldAt_append] at h
  have h1 : m.fieldAt p 1 = 0 := by
    rcases Nat.eq_zero_or_pos (m.fieldAt p 1) with h0 | h0
    · exact h0
    · have := Nat.mul_pos h0 (Nat.two_pow_pos n); omega
  refine ⟨?_, by omega⟩
  rw [Memory.fieldAt_one] at h1
  simpa using h1

/-- The zero scan over a run of zero bits on a quiet store: it consumes them all, as far as the fuel and the bits last. -/
theorem scanZeros_zeros {k fuel z : Nat} {c : Cursor} {st : Store} (h : st.quiet = true) (hb : c.address + k ≤ 8 * st.length)
    (hc : c.byte ≤ Config.maxOffset) (hz : st.content.fieldAt c.address k = 0) (hk : k ≤ fuel) :
    ∃ st', st'.quiet = true ∧ st.sameContent st' ∧ (cursorAt (c.address + k)).byte ≤ Config.maxOffset ∧
      scanZeros fuel z c st = scanZeros (fuel - k) (z + k) (cursorAt (c.address + k)) st' := by
  induction k generalizing fuel z c st with
  | zero => exact ⟨st, h, st.sameContent_refl, by simpa [cursorAt_address] using hc, by simp [cursorAt_address]⟩
  | succ k ih =>
    obtain ⟨h0, hrest⟩ := Memory.fieldAt_succ_eq_zero hz
    have hf := fetchField_quiet (n := 1) h hc
    have hsame := sameContent_fetchField 1 c st
    have hmax := Store.length_le (Store.quiet_iff.mp h).1
    rcases hfe : fetchField 1 c st with ⟨r, st'⟩
    rw [hfe] at hf hsame
    simp only at hf hsame
    have hr := hf.2.1 (.inr (by omega))
    obtain ⟨fuel, rfl⟩ : ∃ f, fuel = f + 1 := ⟨fuel - 1, by omega⟩
    have hlen := Store.sameContent_length hsame
    have haddr : (advance 1 c).address = c.address + 1 := by rw [advance_eq, Cursor.address_cursorAt]
    obtain ⟨st'', hq, hs, hby, he⟩ := ih (fuel := fuel) (z := z + 1) (c := advance 1 c) (st := st') hf.1
      (by rw [hlen, haddr]; omega)
      (by rw [advance_eq]; exact le_trans (byte_cursorAt_le (n := st.length) (by omega)) hmax)
      (by rw [Store.sameContent_content hsame, haddr]; exact hrest) (by omega)
    rw [haddr] at hby he
    refine ⟨st'', hq, Store.sameContent_trans hsame hs, ?_, ?_⟩
    · rw [show c.address + (k + 1) = c.address + 1 + k by omega]; exact hby
    · rw [scanZeros, hfe, hr]
      simp only
      rw [Memory.fieldAt_one, h0, if_neg (by decide), he, show fuel + 1 - (k + 1) = fuel - k by omega,
        show z + (k + 1) = z + 1 + k by omega, show c.address + (k + 1) = c.address + 1 + k by omega]

/-- A whole code word on a quiet store is decoded to its value (44_golomb_decode.md R170, R171). -/
theorem fetchCode_quiet {z : Nat} {c : Cursor} {st : Store} (h : st.quiet = true) (hc : c.byte ≤ Config.maxOffset)
    (hz : z < 64) (hcode : st.content.codeAt c.address z) (hb : c.address + (2 * z + 1) ≤ 8 * st.length) :
    ∃ st', st'.quiet = true ∧ st.sameContent st' ∧
      fetchCode c st = (.ok (st.content.fieldAt (c.address + z) (z + 1) - 1, cursorAt (c.address + (2 * z + 1))), st') := by
  obtain ⟨st1, hq1, hs1, hby, he⟩ :=
    scanZeros_zeros (k := z) (fuel := Config.zeroRunLimit) (z := 0) h (by omega) hc hcode.1 (by simp only [Config.zeroRunLimit]; omega)
  obtain ⟨f, hf⟩ : ∃ f, Config.zeroRunLimit - z = f + 1 := ⟨63 - z, by simp only [Config.zeroRunLimit]; omega⟩
  rw [hf] at he
  set c1 := cursorAt (c.address + z) with hc1
  have ha1 : c1.address = c.address + z := Cursor.address_cursorAt _
  have h1 := fetchField_quiet (n := 1) hq1 hby
  have hs2 := sameContent_fetchField 1 c1 st1
  rcases hfe : fetchField 1 c1 st1 with ⟨r, st2⟩
  rw [hfe] at h1 hs2
  have hr := h1.2.1 (.inr (by rw [Store.sameContent_length hs1, ha1]; omega))
  simp only at hr
  rw [Memory.fieldAt_one, Store.sameContent_content hs1, ha1, hcode.2] at hr
  have hscan : scanZeros Config.zeroRunLimit 0 c st = (.ok (z, c1), st2) := by
    rw [he, scanZeros, hfe, hr]; simp
  have hs02 := Store.sameContent_trans hs1 hs2
  have h3 := fetchField_quiet (n := z + 1) h1.1 hby
  have hs3 := sameContent_fetchField (z + 1) c1 st2
  rcases hfe3 : fetchField (z + 1) c1 st2 with ⟨r, st3⟩
  rw [hfe3] at h3 hs3
  have hr3 := h3.2.1 (.inr (by rw [Store.sameContent_length hs02, ha1]; omega))
  simp only at hr3
  rw [Store.sameContent_content hs02, ha1] at hr3
  refine ⟨st3, h3.1, Store.sameContent_trans hs02 hs3, ?_⟩
  rw [fetchCode, hscan]
  simp only
  rw [hfe3, hr3]
  simp only
  rw [advance_eq, ha1]
  congr 4
  omega

/-- 64 zero bits on a quiet store are an invalid argument (44_golomb_decode.md R171). -/
theorem fetchCode_overlong {c : Cursor} {st : Store} (h : st.quiet = true) (hc : c.byte ≤ Config.maxOffset)
    (hz : st.content.fieldAt c.address 64 = 0) (hb : c.address + 64 ≤ 8 * st.length) :
    ∃ st', st'.quiet = true ∧ st.sameContent st' ∧ fetchCode c st = (.error .invalidArgument, st') := by
  obtain ⟨st1, hq1, hs1, _, he⟩ :=
    scanZeros_zeros (k := 64) (fuel := Config.zeroRunLimit) (z := 0) h hb hc hz (by simp [Config.zeroRunLimit])
  refine ⟨st1, hq1, hs1, ?_⟩
  rw [fetchCode, he]
  rfl

/-- The data ends before the terminating 1-bit: fewer than 64 bits remain and all are zero (44_golomb_decode.md R171). -/
theorem fetchCode_noTerminator {k : Nat} {c : Cursor} {st : Store} (h : st.quiet = true) (hc : c.byte ≤ Config.maxOffset)
    (hk : k < 64) (hz : st.content.fieldAt c.address k = 0) (hb : k = 0 ∨ c.address + k ≤ 8 * st.length)
    (hend : 8 * st.length ≤ c.address + k) :
    ∃ st', st'.quiet = true ∧ st.sameContent st' ∧ fetchCode c st = (.error .insufficientData, st') := by
  have hscan : ∃ st1, st1.quiet = true ∧ st.sameContent st1 ∧ (cursorAt (c.address + k)).byte ≤ Config.maxOffset ∧
      scanZeros Config.zeroRunLimit 0 c st = scanZeros (Config.zeroRunLimit - k) (0 + k) (cursorAt (c.address + k)) st1 := by
    rcases hb with rfl | hb
    · exact ⟨st, h, st.sameContent_refl, by simpa [cursorAt_address] using hc, by simp [cursorAt_address]⟩
    · exact scanZeros_zeros (k := k) (fuel := Config.zeroRunLimit) (z := 0) h hb hc hz (by simp only [Config.zeroRunLimit]; omega)
  obtain ⟨st1, hq1, hs1, hby, he⟩ := hscan
  obtain ⟨f, hf⟩ : ∃ f, Config.zeroRunLimit - k = f + 1 := ⟨63 - k, by simp only [Config.zeroRunLimit]; omega⟩
  rw [hf] at he
  have h1 := fetchField_quiet (n := 1) hq1 hby
  have hs2 := sameContent_fetchField 1 (cursorAt (c.address + k)) st1
  have hr := h1.2.2 (by
    rw [Store.hasBits_sameContent hs1]
    simp only [Store.hasBits, Cursor.address_cursorAt]
    omega)
  rcases hfe : fetchField 1 (cursorAt (c.address + k)) st1 with ⟨r, st2⟩
  rw [hfe] at h1 hs2 hr
  simp only at hr
  refine ⟨st2, h1.1, Store.sameContent_trans hs1 hs2, ?_⟩
  rw [fetchCode, he, scanZeros, hfe, hr]

/-- The payload is cut short: the terminating 1-bit is there and the bits after it are too few (44_golomb_decode.md R171). -/
theorem fetchCode_cutPayload {z : Nat} {c : Cursor} {st : Store} (h : st.quiet = true) (hc : c.byte ≤ Config.maxOffset)
    (hz : z < 64) (hcode : st.content.codeAt c.address z) (hb : c.address + z < 8 * st.length)
    (hend : 8 * st.length < c.address + (2 * z + 1)) :
    ∃ st', st'.quiet = true ∧ st.sameContent st' ∧ fetchCode c st = (.error .insufficientData, st') := by
  obtain ⟨st1, hq1, hs1, hby, he⟩ :=
    scanZeros_zeros (k := z) (fuel := Config.zeroRunLimit) (z := 0) h (by omega) hc hcode.1 (by simp only [Config.zeroRunLimit]; omega)
  obtain ⟨f, hf⟩ : ∃ f, Config.zeroRunLimit - z = f + 1 := ⟨63 - z, by simp only [Config.zeroRunLimit]; omega⟩
  rw [hf] at he
  set c1 := cursorAt (c.address + z) with hc1
  have ha1 : c1.address = c.address + z := Cursor.address_cursorAt _
  have h1 := fetchField_quiet (n := 1) hq1 hby
  have hs2 := sameContent_fetchField 1 c1 st1
  rcases hfe : fetchField 1 c1 st1 with ⟨r, st2⟩
  rw [hfe] at h1 hs2
  have hr := h1.2.1 (.inr (by rw [Store.sameContent_length hs1, ha1]; omega))
  simp only at hr
  rw [Memory.fieldAt_one, Store.sameContent_content hs1, ha1, hcode.2] at hr
  have hscan : scanZeros Config.zeroRunLimit 0 c st = (.ok (z, c1), st2) := by
    rw [he, scanZeros, hfe, hr]; simp
  have hs02 := Store.sameContent_trans hs1 hs2
  have h3 := fetchField_quiet (n := z + 1) h1.1 hby
  have hs3 := sameContent_fetchField (z + 1) c1 st2
  rcases hfe3 : fetchField (z + 1) c1 st2 with ⟨r, st3⟩
  rw [hfe3] at h3 hs3
  have hr3 := h3.2.2 (by
    rw [Store.hasBits_sameContent hs02]
    simp only [Store.hasBits, ha1]
    omega)
  simp only at hr3
  refine ⟨st3, h3.1, Store.sameContent_trans hs02 hs3, ?_⟩
  rw [fetchCode, hscan]
  simp only
  rw [hfe3, hr3]

end Sys2Proof.Machine
end

