-- ==== Sys2Proof/Laws/Exec.lean ====
section
/-! SUPPORT. What the shared ends of a command do: `finish`, `consume`, `writeField` (00_scope.md R16, 45_bit_insert.md R180), on any store and on a quiet one. -/

namespace Sys2Proof.Machine

/-- `finish` either fails at the entry cursor with the store the operation left, or goes on with its value and that store. -/
theorem State.finish_cases {α : Type} (s : State) (r : Except ErrClass α × Store) (k : State → α → State) :
    (∃ e, r.1 = .error e ∧ s.finish r k = s.failed r.2 e) ∨
    (∃ v, r.1 = .ok v ∧ s.finish r k = k (s.withStore r.2) v) := by
  obtain ⟨r, st⟩ := r
  cases r with
  | error e => exact .inl ⟨e, rfl, rfl⟩
  | ok v => exact .inr ⟨v, rfl, rfl⟩

theorem State.finish_error {α : Type} {s : State} {r : Except ErrClass α × Store} {e : ErrClass} (h : r.1 = .error e)
    (k : State → α → State) : s.finish r k = s.failed r.2 e := by
  obtain ⟨r, st⟩ := r
  simp only at h
  subst h
  rfl

theorem State.finish_ok {α : Type} {s : State} {r : Except ErrClass α × Store} {v : α} (h : r.1 = .ok v)
    (k : State → α → State) : s.finish r k = k (s.withStore r.2) v := by
  obtain ⟨r, st⟩ := r
  simp only at h
  subst h
  rfl

/-- An advance over `m` bits fails at the entry cursor or moves the cursor, with the store the walk leaves. -/
theorem consume_cases (m : Nat) (s : State) :
    (∃ r, (walk m s.eng.cur s.store).1 = .error r ∧ consume m s = s.failed (walk m s.eng.cur s.store).2 (reasonClass r)) ∨
    (∃ bs, (walk m s.eng.cur s.store).1 = .ok bs ∧
      consume m s = s.succeeded (walk m s.eng.cur s.store).2 (advance m s.eng.cur) 0 0) := by
  rw [consume]
  rcases walk m s.eng.cur s.store with ⟨r, st⟩
  cases r with
  | error r => exact .inl ⟨r, rfl, rfl⟩
  | ok bs => exact .inr ⟨bs, rfl, rfl⟩

/-- `write_field` fails on its walk, fails on its `Put`, or stores the merged bytes and advances (45_bit_insert.md R180). -/
theorem State.writeField_cases (s : State) (v n : Nat) :
    (∃ r, (walk n s.eng.cur s.store).1 = .error r ∧
      s.writeField v n = s.failed (walk n s.eng.cur s.store).2 (reasonClass r)) ∨
    (∃ bs p, (walk n s.eng.cur s.store).1 = .ok bs ∧
      p = (walk n s.eng.cur s.store).2.put (mergeField bs s.eng.cur.bit n v) s.eng.cur.byte ∧
      ((p.1 ≠ .stored ∧ s.writeField v n = s.failed p.2 .backingStoreFailure) ∨
        (p.1 = .stored ∧ s.writeField v n = s.succeeded p.2 (advance n s.eng.cur) 0 0))) := by
  rw [State.writeField]
  rcases walk n s.eng.cur s.store with ⟨r, st⟩
  cases r with
  | error r => exact .inl ⟨r, rfl, rfl⟩
  | ok bs =>
    refine .inr ⟨bs, _, rfl, rfl, ?_⟩
    simp only
    rcases st.put (mergeField bs s.eng.cur.bit n v) s.eng.cur.byte with ⟨q, st'⟩
    cases q with
    | stored => exact .inr ⟨rfl, rfl⟩
    | rejected => exact .inl ⟨by simp, rfl⟩
    | ioFailed => exact .inl ⟨by simp, rfl⟩

/-- `write_field` on a quiet store with room writes exactly the field and advances (45_bit_insert.md R180, R188). -/
theorem State.writeField_quiet {s : State} (h : s.store.quiet = true) (hc : s.eng.cur.byte ≤ Config.maxOffset) {n : Nat} (v : Nat)
    (hn : n ≠ 0) (hb : s.store.hasBits s.eng.cur n) :
    ∃ st, st.quiet = true ∧ s.store.sameShape st ∧
      s.store.content.fieldWritten st.content s.eng.cur.address n v ∧
      s.writeField v n = s.succeeded st (cursorAt (s.eng.cur.address + n)) 0 0 := by
  have hw := walk_quiet (n := n) h hc
  have hs := sameContent_walk n s.eng.cur s.store
  have hbs := hw.2.1 hb
  rw [if_neg hn] at hbs
  have hfit : s.eng.cur.byte +
      (mergeField (s.store.content.readBytes s.eng.cur.byte (bytesTouched s.eng.cur.bit n)) s.eng.cur.bit n v).length ≤
        (walk n s.eng.cur s.store).2.length := by
    rw [Store.sameContent_length hs, length_mergeField, Memory.length_readBytes]
    exact (Store.hasBits_iff hn).mp hb
  have hp := Store.put_quiet hw.1 hfit
  rcases s.writeField_cases v n with ⟨r, hr, _⟩ | ⟨bs, p, hr, hpe, hend⟩
  · rw [hbs] at hr; simp at hr
  · rw [hbs, Except.ok.injEq] at hr
    subst hr
    rw [← hpe] at hp
    rcases hend with ⟨hno, _⟩ | ⟨_, he⟩
    · exact absurd hp.1 hno
    · refine ⟨p.2, hp.2.1, Store.sameShape_trans (Store.sameContent_sameShape hs) hp.2.2.1, ?_, he⟩
      rw [hp.2.2.2, Store.sameContent_content hs]
      exact Memory.fieldWritten_merge (Store.content_wf (Store.quiet_iff.mp h).1) s.eng.cur.bit.isLt v

/-- `write_field` on a quiet store without room writes nothing (45_bit_insert.md R180). -/
theorem State.writeField_noRoom {s : State} (h : s.store.quiet = true) (hc : s.eng.cur.byte ≤ Config.maxOffset) {n : Nat} (v : Nat)
    (hb : ¬ s.store.hasBits s.eng.cur n) :
    ∃ st, st.quiet = true ∧ s.store.sameContent st ∧ s.writeField v n = s.failed st .insufficientData := by
  have hw := walk_quiet (n := n) h hc
  have hbs := hw.2.2 hb
  rcases s.writeField_cases v n with ⟨r, hr, he⟩ | ⟨bs, p, hr, _⟩
  · rw [hbs, Except.error.injEq] at hr
    subst hr
    exact ⟨_, hw.1, sameContent_walk n s.eng.cur s.store, he⟩
  · rw [hbs] at hr; simp at hr

/-- However `write_field` ends, the bytes of the old store that the field does not touch keep their values. -/
theorem State.writeField_frame {s : State} (h : s.store.wf = true) (hc : s.eng.cur.byte ≤ Config.maxOffset) {n : Nat} (v : Nat)
    {x : Nat} (hx : x < s.store.length)
    (hout : x < s.eng.cur.byte ∨ s.eng.cur.byte + bytesTouched s.eng.cur.bit n ≤ x) :
    (s.writeField v n).store.content.read x = s.store.content.read x := by
  have hs := sameContent_walk n s.eng.cur s.store
  have hw := walk_wf (n := n) h hc
  rcases s.writeField_cases v n with ⟨r, _, he⟩ | ⟨bs, p, hr, hpe, hend⟩
  · rw [he]; simp only [State.failed]; rw [Store.sameContent_content hs]
  · have hlen := (hw.2 bs hr).1
    have hle : bs.length ≤ bytesTouched s.eng.cur.bit n := by rw [hlen]; split_ifs <;> omega
    have hf := Store.put_frame hw.1 (mergeField bs s.eng.cur.bit n v) s.eng.cur.byte
      (by rw [Store.sameContent_length hs]; exact hx) (by rw [length_mergeField]; omega)
    rw [← hpe, Store.sameContent_content hs] at hf
    rcases hend with ⟨_, he⟩ | ⟨_, he⟩ <;> rw [he] <;> exact hf

/-- What `write_field` leaves on any well-formed store. -/
theorem State.writeField_wf {s : State} (h : s.store.wf = true) (hc : s.eng.cur.byte ≤ Config.maxOffset) (v n : Nat) :
    (s.writeField v n).store.wf = true ∧ (s.writeField v n).eng.cur.byte ≤ Config.maxOffset := by
  have hw := walk_wf (n := n) h hc
  rcases s.writeField_cases v n with ⟨r, _, he⟩ | ⟨bs, p, hr, hpe, hend⟩
  · rw [he]; exact ⟨hw.1, hc⟩
  · have hb := hw.2 bs hr
    have hp := Store.wf_put hw.1 (mergeField bs s.eng.cur.bit n v) s.eng.cur.byte
    rw [← hpe] at hp
    rcases hend with ⟨_, he⟩ | ⟨_, he⟩ <;> rw [he]
    · exact ⟨hp, hc⟩
    · exact ⟨hp, hb.2.2⟩


/-! ### Every command -/

/-- A write that passes its operand checks is one `write_field`, or nothing for a field of no bits
(45_bit_insert.md R181 to R186, 46_golomb_encode.md R191, R192). -/
theorem exec_write {i : Instr} {s : State} {n : Nat} (h : writtenWidth i s = some n) :
    ∃ v, (n ≠ 0 → exec i s = .next (s.writeField v n)) ∧
      (n = 0 → exec i s = .next (s.succeeded s.store s.eng.cur 0 0)) := by
  cases i <;> simp only [writtenWidth] at h <;> try contradiction
  case writeBits =>
    split_ifs at h with h1
    cases h
    refine ⟨opValue s, fun h0 => ?_, fun h0 => ?_⟩ <;> simp only [exec, execWriteBits]
    · rw [if_neg (by omega), if_neg h0]
    · rw [if_neg (by omega), if_pos h0]; rfl
  case writeUe =>
    split_ifs at h with h1
    cases h
    have := one_le_codeWidth (opValue s + 1)
    exact ⟨opValue s + 1, fun _ => by simp only [exec, execWriteUe]; rw [if_neg h1]; rfl, fun h0 => by omega⟩
  case writeSe =>
    split_ifs at h with h1
    cases h
    have := one_le_codeWidth (codeOfSigned (opSigned s) + 1)
    exact ⟨codeOfSigned (opSigned s) + 1, fun _ => by simp only [exec, execWriteSe]; rw [if_neg h1]; rfl, fun h0 => by omega⟩
  all_goals (cases h; exact ⟨_, fun _ => rfl, by simp⟩)

/-- The two ways a command can end: a failure at the entry cursor, or a success; RES1 is 0 but for SAVE_POS
(00_scope.md R16, 10_state.md R29, R32). -/
def State.Responds (i : Instr) (s t : State) : Prop :=
  (∃ st e, t = s.failed st e) ∨
    ∃ st c r0 r1, t = s.succeeded st c r0 r1 ∧ (r1 = 0 ∨ (i = .savePos ∧ r1 = BitVec.ofNat 64 s.eng.cur.bit))

theorem State.responds_finish {α : Type} (i : Instr) {s : State} {r : Except ErrClass α × Store} {k : State → α → State}
    (hk : ∀ st v, ∃ c r0, k (s.withStore st) v = s.succeeded st c r0 0) : State.Responds i s (s.finish r k) := by
  rcases s.finish_cases r k with ⟨e, _, he⟩ | ⟨v, _, he⟩
  · exact .inl ⟨_, _, he⟩
  · obtain ⟨c, r0, hc⟩ := hk r.2 v
    exact .inr ⟨_, c, r0, 0, he.trans hc, .inl rfl⟩

theorem State.responds_writeField (i : Instr) (s : State) (v n : Nat) : State.Responds i s (s.writeField v n) := by
  rcases s.writeField_cases v n with ⟨_, _, he⟩ | ⟨_, _, _, _, ⟨_, he⟩ | ⟨_, he⟩⟩
  · exact .inl ⟨_, _, he⟩
  · exact .inl ⟨_, _, he⟩
  · exact .inr ⟨_, _, _, _, he, .inl rfl⟩

theorem State.responds_consume (i : Instr) (s : State) (m : Nat) : State.Responds i s (consume m s) := by
  rcases consume_cases m s with ⟨_, _, he⟩ | ⟨_, _, he⟩
  · exact .inl ⟨_, _, he⟩
  · exact .inr ⟨_, _, _, _, he, .inl rfl⟩

theorem State.responds_fail (i : Instr) (s : State) (st : Store) (e : ErrClass) : State.Responds i s (s.failed st e) :=
  .inl ⟨_, _, rfl⟩

theorem State.responds_succeed (i : Instr) (s : State) (st : Store) (c : Cursor) (r0 : Word) :
    State.Responds i s (s.succeeded st c r0 0) := .inr ⟨_, _, _, _, rfl, .inl rfl⟩

/-- Every command, on every state, answers a next state that is one of its two responses. -/
theorem exec_responds (i : Instr) (s : State) : ∃ t, exec i s = .next t ∧ State.Responds i s t := by
  have fail := fun e => State.responds_fail i s s.store e
  have done := fun r0 => State.responds_succeed i s s.store s.eng.cur r0
  cases i
  case remainingBits =>
    simp only [exec, execRemainingBits]
    rcases walk (opCount s) s.eng.cur s.store with ⟨_ | _, st⟩ <;>
      exact ⟨_, rfl, State.responds_succeed _ s st s.eng.cur _⟩
  case peekBits =>
    simp only [exec, execPeekBits]
    split_ifs
    · exact ⟨_, rfl, fail _⟩
    · exact ⟨_, rfl, done 0⟩
    · exact ⟨_, rfl, State.responds_finish _ fun _ _ => ⟨_, _, rfl⟩⟩
  case readBits =>
    simp only [exec, execReadBits]
    split_ifs
    · exact ⟨_, rfl, fail _⟩
    · exact ⟨_, rfl, done 0⟩
    · exact ⟨_, rfl, State.responds_finish _ fun _ _ => ⟨_, _, rfl⟩⟩
  case consumeBits => exact ⟨_, rfl, State.responds_consume _ _ _⟩
  case consumeBytes => exact ⟨_, rfl, State.responds_consume _ _ _⟩
  case seek =>
    simp only [exec, execSeek]
    split_ifs
    · exact ⟨_, rfl, fail _⟩
    · exact ⟨_, rfl, fail _⟩
    · rcases s.store.lookup (opByteOffset s).toNat with ⟨(_ | _) | _, st⟩
      · exact ⟨_, rfl, State.responds_fail _ s st _⟩
      · exact ⟨_, rfl, State.responds_fail _ s st _⟩
      · exact ⟨_, rfl, State.responds_succeed _ s st _ 0⟩
  case savePos => exact ⟨_, rfl, .inr ⟨s.store, s.eng.cur, _, _, rfl, .inr ⟨rfl, rfl⟩⟩⟩
  case restorePos =>
    simp only [exec, execRestorePos]
    split_ifs
    · exact ⟨_, rfl, fail _⟩
    · exact ⟨_, rfl, State.responds_succeed _ s s.store _ 0⟩
  case resetPos => exact ⟨_, rfl, State.responds_succeed _ s s.store _ 0⟩
  case writeBits =>
    simp only [exec, execWriteBits]
    split_ifs
    · exact ⟨_, rfl, fail _⟩
    · exact ⟨_, rfl, done 0⟩
    · exact ⟨_, rfl, State.responds_writeField _ _ _ _⟩
  case writeUe =>
    simp only [exec, execWriteUe]
    split_ifs
    · exact ⟨_, rfl, fail _⟩
    · exact ⟨_, rfl, State.responds_writeField _ _ _ _⟩
  case writeSe =>
    simp only [exec, execWriteSe]
    split_ifs
    · exact ⟨_, rfl, fail _⟩
    · exact ⟨_, rfl, State.responds_writeField _ _ _ _⟩
  case illegal => exact ⟨_, rfl, fail _⟩
  case writeU8 => exact ⟨_, rfl, State.responds_writeField _ _ _ _⟩
  case writeU16 => exact ⟨_, rfl, State.responds_writeField _ _ _ _⟩
  case writeU32 => exact ⟨_, rfl, State.responds_writeField _ _ _ _⟩
  case writeU64 => exact ⟨_, rfl, State.responds_writeField _ _ _ _⟩
  all_goals exact ⟨_, rfl, State.responds_finish _ fun _ _ => ⟨_, _, rfl⟩⟩

/-! ### The invariant -/

theorem State.inv_iff {s : State} :
    s.inv = true ↔ (s.eng.cur.byte ≤ Config.maxOffset ∧ s.eng.responseLegal = true) ∧ s.store.wf = true ∧
      s.parked.all Engine.wf = true ∧ s.others.all OtherStore.wf = true := by
  simp [State.inv, Engine.wf, and_assoc]

theorem State.inv_failed {s : State} (h : s.inv = true) {st : Store} (hs : st.wf = true) (e : ErrClass) :
    (s.failed st e).inv = true := by
  rw [State.inv_iff] at h ⊢
  refine ⟨⟨h.1.1, ?_⟩, hs, h.2.2⟩
  cases e <;> simp [State.failed, Engine.responseLegal, statusFail, errCode]

theorem State.inv_succeeded {s : State} (h : s.inv = true) {st : Store} (hs : st.wf = true) {c : Cursor}
    (hc : c.byte ≤ Config.maxOffset) (r0 : Word) {r1 : Word} (hr : r1.toNat ≤ 7) : (s.succeeded st c r0 r1).inv = true := by
  rw [State.inv_iff] at h ⊢
  exact ⟨⟨hc, by simp [State.succeeded, Engine.responseLegal, hr]⟩, hs, h.2.2⟩

end Sys2Proof.Machine
end

