-- ==== Sys2Proof/Laws/PerInstr.lean ====
section
/-! SUPPORT. Per-instruction facts about the encoding: an instruction encodes to a legal command word exactly when it is no ILLEGAL one (30_encoding.md R100 to R106). -/

namespace Sys2Proof.Laws.LegalEncoding

/-- A well-formed instruction is no ILLEGAL one exactly when its word has RSV clear, OP in the map and BO only where a byte
order exists. -/
def Statement (i : Instr) : Prop := i.wellFormed = true → (legalWord (encode i) = true ↔ ∀ w, i ≠ .illegal w)

/-- A legal encoding of a command decides its Statement. -/
theorem of_legal {i : Instr} (h : legalWord (encode i) = true) (hi : ∀ w, i ≠ .illegal w) : Statement i :=
  fun _ => ⟨fun _ => hi, fun _ => h⟩

theorem remainingBits : Statement .remainingBits := of_legal (by decide) nofun

theorem peekBits : Statement .peekBits := of_legal (by decide) nofun

theorem consumeBits : Statement .consumeBits := of_legal (by decide) nofun

theorem consumeBytes : Statement .consumeBytes := of_legal (by decide) nofun

theorem readBits : Statement .readBits := of_legal (by decide) nofun

theorem readU8 (bo : ByteOrder) : Statement (.readU8 bo) := of_legal (by cases bo <;> decide) nofun

theorem readU16 (bo : ByteOrder) : Statement (.readU16 bo) := of_legal (by cases bo <;> decide) nofun

theorem readU32 (bo : ByteOrder) : Statement (.readU32 bo) := of_legal (by cases bo <;> decide) nofun

theorem readU64 (bo : ByteOrder) : Statement (.readU64 bo) := of_legal (by cases bo <;> decide) nofun

theorem seek : Statement .seek := of_legal (by decide) nofun

theorem savePos : Statement .savePos := of_legal (by decide) nofun

theorem restorePos : Statement .restorePos := of_legal (by decide) nofun

theorem resetPos : Statement .resetPos := of_legal (by decide) nofun

theorem readUe : Statement .readUe := of_legal (by decide) nofun

theorem readSe : Statement .readSe := of_legal (by decide) nofun

theorem writeBits : Statement .writeBits := of_legal (by decide) nofun

theorem writeU8 (bo : ByteOrder) : Statement (.writeU8 bo) := of_legal (by cases bo <;> decide) nofun

theorem writeU16 (bo : ByteOrder) : Statement (.writeU16 bo) := of_legal (by cases bo <;> decide) nofun

theorem writeU32 (bo : ByteOrder) : Statement (.writeU32 bo) := of_legal (by cases bo <;> decide) nofun

theorem writeU64 (bo : ByteOrder) : Statement (.writeU64 bo) := of_legal (by cases bo <;> decide) nofun

theorem writeUe : Statement .writeUe := of_legal (by decide) nofun

theorem writeSe : Statement .writeSe := of_legal (by decide) nofun

theorem illegal (w : CmdWord) : Statement (.illegal w) := fun h =>
  ⟨fun hl => by simp [Instr.wellFormed, show legalWord w = true from hl] at h, fun hn => absurd rfl (hn w)⟩

end Sys2Proof.Laws.LegalEncoding
end

