-- ==== Sys2Proof/Tests/Slice0.lean ====
section
/-! SUPPORT. Tests of single commands against the worked values of spec/95_test_vectors.md, and for every obligation with hypotheses a state and operands that meet them. -/

namespace Sys2Proof.Tests

open Sys2Proof.Machine

/-! ### Builders -/

/-- A `SLICE` machine over these bytes, with a cursor and operands. -/
def mk (bs : List Byte) (b : Nat) (t : Fin 8) (a v : Word) : State :=
  { State.reset with store := newSlice bs, eng := { Engine.reset with cur := ⟨b, t⟩, opa := a, opb := v } }

/-- A `WINDOWED` machine with `W = 4` over these bytes and a failure oracle, with a cursor and operands. -/
def mkw (orc : Oracle) (bs : List Byte) (b : Nat) (t : Fin 8) (a v : Word) : State :=
  { mk [] b t a v with store := newWindowed 4 0 orc bs }

/-- A machine with these host actions pending. -/
def hosted (s : State) (as : List HostAction) : State := { s with host := as }

/-- The store of the source's decode scenario (95_test_vectors.md, `D`). -/
def scenario : List Byte := [0xA6, 0x42, 0x98, 0xE2, 0x04, 0x8A]

/-- `n` zero bytes. -/
def zeros (n : Nat) : List Byte := List.replicate n 0

/-- A draw that does not fail, and one that fails with nothing stored. -/
def goodDraw : Config.Draw := { fails := false, stored := [], size := 0, created := [] }
def badDraw : Config.Draw := { fails := true, stored := [], size := 0, created := [] }

/-- The oracle whose first calls succeed, `n` of them, and whose next call fails. -/
def failsAfter (n : Nat) : Oracle := .draws (List.replicate n goodDraw ++ [badDraw]) 0

/-- The next state, if there is one. -/
def answered : Host.Outcome State Fault Refusal → Option State
  | .next s => some s
  | .fault _ => none
  | .refused _ => none

theorem next_of_answered {o : Host.Outcome State Fault Refusal} {t : State} (h : answered o = some t) : o = .next t := by
  cases o <;> simp_all [answered]

/-- A command answers a state in which STATUS is 1. -/
def succeeds (i : Instr) (s : State) : Bool := (answered (exec i s)).any fun t => t.eng.status == 1

/-- A command answers a state in which STATUS is not 1. -/
def fails (i : Instr) (s : State) : Bool := (answered (exec i s)).any fun t => t.eng.status != 1

theorem next_of_succeeds {i : Instr} {s : State} (h : succeeds i s = true) : ∃ t, exec i s = .next t ∧ t.eng.status = 1 := by
  unfold succeeds at h
  cases ho : answered (exec i s) with
  | none => simp [ho] at h
  | some t => exact ⟨t, next_of_answered ho, by simpa [ho] using h⟩

theorem next_of_fails {i : Instr} {s : State} (h : fails i s = true) : ∃ t, exec i s = .next t ∧ t.eng.status ≠ 1 := by
  unfold fails at h
  cases ho : answered (exec i s) with
  | none => simp [ho] at h
  | some t => exact ⟨t, next_of_answered ho, by simpa [ho] using h⟩

/-- STATUS, RES0, RES1 and the cursor of an answer. -/
def response (o : Host.Outcome State Fault Refusal) : Option (CmdWord × Word × Word × Cursor) :=
  (answered o).map fun t => (t.eng.status, t.eng.res0, t.eng.res1, t.eng.cur)

/-- STATUS, the cursor and the store's bytes of an answer. -/
def written (o : Host.Outcome State Fault Refusal) : Option (CmdWord × Cursor × List Byte) :=
  (answered o).map fun t => (t.eng.status, t.eng.cur, t.store.content.readBytes 0 t.store.length)

/-- The window of a store: its start and its bytes; of a `SLICE` store, none. -/
def windowOf : Store → Option (Nat × List Byte)
  | .slice _ => none
  | .windowed w => some (w.bufferIndex, w.window)

/-! ### WellFormed: each check refuses an ill-formed term (30_encoding.md R101 to R103) -/

theorem test_wellFormed_refuses_legal_op : (Instr.illegal 0x00000001).wellFormed = false := by decide
theorem test_wellFormed_refuses_legal_bo : (Instr.illegal 0x0000012B).wellFormed = false := by decide
theorem test_wellFormed_takes_reserved_op : (Instr.illegal 0x00000006).wellFormed = true := by decide
theorem test_wellFormed_takes_bo : (Instr.illegal 0x00000101).wellFormed = true := by decide
theorem test_wellFormed_takes_rsv : (Instr.illegal 0x00000208).wellFormed = true := by decide

/-! ### Decoding: words written out bit by bit from 30_encoding.md R100, R103 (RSV, BO, OP) -/

theorem test_decode_extract : decode 0b00000000000000000000000_0_00000101 = .readBits := by decide
theorem test_decode_unpack : decode 0b00000000000000000000000_1_00001010 = .readU32 .little := by decide
theorem test_decode_cursor : decode 0b00000000000000000000000_0_00010010 = .restorePos := by decide
theorem test_decode_golomb : decode 0b00000000000000000000000_0_00011001 = .readSe := by decide
theorem test_decode_insert : decode 0b00000000000000000000000_1_00101011 = .writeU64 .little := by decide
theorem test_decode_encode_family : decode 0b00000000000000000000000_0_00110001 = .writeSe := by decide
theorem test_decode_illegal :
    [0x00000000, 0x00000006, 0x000000FF, 0x00000101, 0x00000118, 0x00000208, 0x80000009].all
      (fun w : CmdWord => decode w == .illegal w) = true := by decide
theorem test_table_word : decodeTableWord 32 0x109 = some (.readU16 .little) := by decide

/-! ### One command on one small state (95_test_vectors.md, section 2; the vector's number in each name) -/

theorem test_remainingBits_X16 : response (exec .remainingBits (mk scenario 5 4 4 0)) = some (1, 1, 0, ⟨5, 4⟩) := by decide
theorem test_remainingBits_X21 :
    response (exec .remainingBits (mk scenario 0 0 0xFFFFFFFFFFFFFFFF 0)) = some (1, 0, 0, ⟨0, 0⟩) := by decide
theorem test_peekBits_X1 : response (exec .peekBits (mk scenario 0 3 12 0)) = some (1, 0x321, 0, ⟨0, 3⟩) := by decide
theorem test_peekBits_X10 :
    response (exec .peekBits (mk (scenario ++ [0x11, 0x22, 0x33]) 0 7 64 0)) = some (1, 0x214C710245089119, 0, ⟨0, 7⟩) := by decide
theorem test_consumeBits_X22 : response (exec .consumeBits (mk scenario 0 3 12 0)) = some (1, 0, 0, ⟨1, 7⟩) := by decide
theorem test_consumeBits_X26 : response (exec .consumeBits (mk scenario 0 0 49 0)) = some (2, 0, 0, ⟨0, 0⟩) := by decide
theorem test_consumeBytes_X29 : response (exec .consumeBytes (mk scenario 1 3 2 0)) = some (1, 0, 0, ⟨3, 3⟩) := by decide
theorem test_consumeBytes_X31 :
    response (exec .consumeBytes (mk scenario 0 0 0x2000000000000000 0)) = some (2, 0, 0, ⟨0, 0⟩) := by decide
theorem test_readBits_X12 : response (exec .readBits (mk scenario 0 3 45 0)) = some (1, 0x64298E2048A, 0, ⟨6, 0⟩) := by decide
theorem test_readBits_X4 : response (exec .readBits (mk scenario 0 0 65 0)) = some (4, 0, 0, ⟨0, 0⟩) := by decide
theorem test_readU8_U4 : response (exec (.readU8 .big) (mk scenario 0 7 0 0)) = some (1, 0x21, 0, ⟨1, 7⟩) := by decide
theorem test_readU8_U2 : response (exec (.readU8 .little) (mk scenario 0 4 0 0)) = some (1, 0x64, 0, ⟨1, 4⟩) := by decide
theorem test_readU16_U12 : response (exec (.readU16 .big) (mk scenario 2 1 0 0)) = some (1, 0x31C4, 0, ⟨4, 1⟩) := by decide
theorem test_readU16_U13 : response (exec (.readU16 .little) (mk scenario 2 1 0 0)) = some (1, 0xC431, 0, ⟨4, 1⟩) := by decide
theorem test_readU32_U20 : response (exec (.readU32 .big) (mk scenario 0 7 0 0)) = some (1, 0x214C7102, 0, ⟨4, 7⟩) := by decide
theorem test_readU32_U21 : response (exec (.readU32 .little) (mk scenario 0 7 0 0)) = some (1, 0x02714C21, 0, ⟨4, 7⟩) := by decide
theorem test_readU64_U24 :
    response (exec (.readU64 .big) (mk (scenario ++ [0x11, 0x22]) 0 0 0 0)) = some (1, 0xA64298E2048A1122, 0, ⟨8, 0⟩) := by decide
theorem test_readU64_U25 :
    response (exec (.readU64 .little) (mk (scenario ++ [0x11, 0x22]) 0 0 0 0)) = some (1, 0x22118A04E29842A6, 0, ⟨8, 0⟩) := by decide
theorem test_seek_C1 : response (exec .seek (mk scenario 0 0 5 7)) = some (1, 0, 0, ⟨5, 7⟩) := by decide
theorem test_seek_C2 : response (exec .seek (mk scenario 2 2 6 0)) = some (2, 0, 0, ⟨2, 2⟩) := by decide
theorem test_savePos_C7 : response (exec .savePos (mk scenario 4 2 0 0)) = some (1, 4, 2, ⟨4, 2⟩) := by decide
theorem test_restorePos_C9 : response (exec .restorePos (mk scenario 0 0 100 0)) = some (1, 0, 0, ⟨100, 0⟩) := by decide
theorem test_restorePos_C11 :
    response (exec .restorePos (mk scenario 0 0 0xFFFFFFFFFFFFFFFF 0)) = some (4, 0, 0, ⟨0, 0⟩) := by decide
theorem test_resetPos_C12 : response (exec .resetPos (mk scenario 5 6 0 0)) = some (1, 0, 0, ⟨0, 0⟩) := by decide
theorem test_readUe_G3 : response (exec .readUe (mk [0x01, 0x40] 0 0 0 0)) = some (1, 0x9F, 0, ⟨1, 7⟩) := by decide
theorem test_readUe_G10 : response (exec .readUe (mk (zeros 8 ++ [0x80]) 0 0 0 0)) = some (4, 0, 0, ⟨0, 0⟩) := by decide
theorem test_readSe_G14 :
    response (exec .readSe (mk (zeros 7 ++ [0x01] ++ List.replicate 8 0xFF) 0 0 0 0)) =
      some (1, 0x8000000000000001, 0, ⟨15, 7⟩) := by decide
theorem test_readSe_P3 : response (exec .readSe (mk scenario 1 3 0 0)) = some (1, 5, 0, ⟨2, 2⟩) := by decide
theorem test_writeBits_W2 : written (exec .writeBits (mk (zeros 2) 0 6 3 5)) = some (1, ⟨1, 1⟩, [0x02, 0x80]) := by decide
theorem test_writeBits_W5 : written (exec .writeBits (mk [0] 0 1 8 0xFF)) = some (2, ⟨0, 1⟩, [0]) := by decide
theorem test_writeU8_W10 : written (exec (.writeU8 .big) (mk (zeros 2) 0 4 0 0xAB)) = some (1, ⟨1, 4⟩, [0x0A, 0xB0]) := by decide
theorem test_writeU8_W11 : written (exec (.writeU8 .little) (mk (zeros 2) 0 4 0 0xAB)) = some (1, ⟨1, 4⟩, [0x0A, 0xB0]) := by decide
theorem test_writeU16_W13 :
    written (exec (.writeU16 .big) (mk (zeros 3) 0 4 0 0x1234)) = some (1, ⟨2, 4⟩, [0x01, 0x23, 0x40]) := by decide
theorem test_writeU16_W12 :
    written (exec (.writeU16 .little) (mk (zeros 3) 0 4 0 0x1234)) = some (1, ⟨2, 4⟩, [0x03, 0x41, 0x20]) := by decide
theorem test_writeU32_W15 :
    written (exec (.writeU32 .big) (mk (zeros 4) 0 0 0 0xDEADBEEF)) = some (1, ⟨4, 0⟩, [0xDE, 0xAD, 0xBE, 0xEF]) := by decide
theorem test_writeU32_W16 :
    written (exec (.writeU32 .little) (mk (zeros 4) 0 0 0 0x1DEADBEEF)) = some (1, ⟨4, 0⟩, [0xEF, 0xBE, 0xAD, 0xDE]) := by decide
theorem test_writeU64_W20 :
    written (exec (.writeU64 .big) (mk (zeros 9) 0 1 0 0x0102030405060708)) =
      some (1, ⟨8, 1⟩, [0x00, 0x81, 0x01, 0x82, 0x02, 0x83, 0x03, 0x84, 0x00]) := by decide
theorem test_writeU64_W19 :
    written (exec (.writeU64 .little) (mk (zeros 9) 0 1 0 0x0102030405060708)) =
      some (1, ⟨8, 1⟩, [0x04, 0x03, 0x83, 0x02, 0x82, 0x01, 0x81, 0x00, 0x80]) := by decide
theorem test_writeUe_N9 :
    written (exec .writeUe (mk (zeros 16) 0 0 0 0xFFFFFFFFFFFFFFFE)) =
      some (1, ⟨15, 7⟩, zeros 7 ++ [0x01] ++ List.replicate 7 0xFF ++ [0xFE]) := by decide
theorem test_writeUe_N10 : written (exec .writeUe (mk (zeros 16) 0 0 0 0xFFFFFFFFFFFFFFFF)) = some (4, ⟨0, 0⟩, zeros 16) := by decide
theorem test_writeSe_N14 :
    written (exec .writeSe (mk (zeros 16) 0 1 0 0x8000000000000001)) =
      some (1, ⟨16, 0⟩, zeros 8 ++ List.replicate 8 0xFF) := by decide
theorem test_writeSe_N12 : written (exec .writeSe (mk [0x60] 0 3 0 2)) = some (1, ⟨1, 0⟩, [0x64]) := by decide
theorem test_illegal_E1 : response (exec (.illegal 0) (mk scenario 1 3 0 0)) = some (4, 0, 0, ⟨1, 3⟩) := by decide

/-! ### The windowed store (95_test_vectors.md, P5 and M3 to M9) -/

/-- The stream `00 01 … 0B` of P5. -/
def counting : List Byte := [0, 1, 2, 3, 4, 5, 6, 7, 8, 9, 10, 11]

theorem test_window_P5 :
    (answered (exec .seek (mkw .faultFree counting 0 0 9 0))).map (fun t => (t.eng.status, windowOf t.store)) =
      some (1, some (7, [7, 8, 9, 10])) := by decide
theorem test_put_M7 :
    (let st := (Store.windowed
      { windowSize := 4, bufferIndex := 2, window := zeros 4,
        stream := { length := 12, bytes := [], gapFill := 0, oracle := .faultFree, overlong := 0 } }).putChecked (some (List.replicate 8 0x11)) 0
     (st.1, (st.2.at 3).1, windowOf st.2)) = (true, some 0x11, some (2, List.replicate 4 0x11)) := by decide
theorem test_failed_put_M8 :
    (answered (exec (.writeU8 .big) (mkw (failsAfter 1) (zeros 2) 0 0 0 0xAB))).map
      (fun t => (t.eng.status, t.eng.cur, (windowOf t.store).map Prod.snd)) = some (6, ⟨0, 0⟩, some []) := by decide
theorem test_put_empty_M4 : ((newSlice scenario).putChecked (some []) (-1)).1 = false := by decide
theorem test_slice_M1 : ((newSlice scenario).sliceBytes 4 10).1 = [0x04, 0x8A] := by decide
theorem test_length_M9 : ((newWindowed 4 0 .faultFree counting).reportLength).1 = 12 := by decide

/-! ### From reset (10_state.md R41) -/

theorem test_first_command :
    response (step (State.reset.withFetchWord 32 0x11)) = some (1, 0, 0, ⟨0, 0⟩) := by decide

/-! ### Witnesses: for every obligation with hypotheses, states and operands that meet them, each clause at a boundary -/

/-- A `WINDOWED` store over twelve bytes whose next stream call fails, with a cursor and operands. -/
def failing (b : Nat) (t : Fin 8) (a v : Word) : State := mkw (failsAfter 0) counting b t a v

/-- The walk of `n` bits at the cursor succeeds. -/
def walks (n : Nat) (s : State) : Bool :=
  match (walk n s.eng.cur s.store).1 with
  | .ok _ => true
  | .error _ => false

/-- How the `Put` of `n` bits of `v` at the cursor ends, if the walk before it succeeds. -/
def putEnds (n v : Nat) (s : State) : Option PutResult :=
  match walk n s.eng.cur s.store with
  | (.ok bs, st) => some (st.put (mergeField bs s.eng.cur.bit n v) s.eng.cur.byte).1
  | (.error _, _) => none

theorem witness_DecodeFollowsTheRule :
    ((0x200 : CmdWord) >>> 9 ≠ 0 ∧ (0x106 : CmdWord).toNat % 256 ∉ legalOps ∧
      ((0x101 : CmdWord).getLsbD 8 = true ∧ (0x101 : CmdWord).toNat % 256 ∉ orderedOps)) ∧
    ((0x12B : CmdWord) >>> 9 = 0 ∧ (0x12B : CmdWord).toNat % 256 ∈ legalOps ∧
      (0x12B : CmdWord).getLsbD 8 = true ∧ (0x12B : CmdWord).toNat % 256 ∈ orderedOps) ∧
    ((0x31 : CmdWord) >>> 9 = 0 ∧ (0x31 : CmdWord).toNat % 256 ∈ legalOps ∧ (0x31 : CmdWord).getLsbD 8 = false) := by decide

theorem witness_DecodeEncodeRoundTrip :
    (Instr.illegal 0xFFFFFFFF).wellFormed = true ∧ (Instr.readU64 .little).wellFormed = true := by decide

theorem witness_StepRunsDecodedCommand :
    (hosted State.reset [.write 0 ((0x80000009 : CmdWord).setWidth 64)]).host = .write 0 ((0x80000009 : CmdWord).setWidth 64) :: [] ∧
      (hosted State.reset [.read 0]).host = .read 0 :: [] := by decide

theorem witness_IdleBlockKeepsItsState : State.reset.host = [] := by decide

theorem witness_RegisterAccess :
    (hosted State.reset [.read 5]).host = .read 5 :: [] ∧ (hosted State.reset [.read 6]).host = .read 6 :: [] ∧
      (1 ≠ 0 ∧ (hosted State.reset [.write 1 7]).host = .write 1 7 :: []) ∧
      (3 ≠ 0 ∧ (hosted State.reset [.write 3 7]).host = .write 3 7 :: []) := by decide

theorem witness_BuildEngineResets : (hosted State.reset [.buildEngine]).host = .buildEngine :: [] := by decide

theorem witness_BuiltStoresHoldTheOwnersBytes :
    ((hosted State.reset [.buildSlice []]).host = .buildSlice [] :: [] ∧ ([] : List Byte).length ≤ Config.maxOffset) ∧
      ((hosted State.reset [.buildWindowed 1 0 .faultFree counting]).host = .buildWindowed 1 0 .faultFree counting :: [] ∧
        1 ≠ 0 ∧ counting.length ≤ Config.maxOffset) := by decide

theorem witness_EnginesShareTheStore :
    let s := { hosted State.reset [.selectEngine 0] with parked := [(mk [] 2 3 4 5).eng] }
    s.host = .selectEngine 0 :: [] ∧ s.parked[0]? = some (mk [] 2 3 4 5).eng := by decide

/-- The store of the `WINDOWED` machine over `counting`, and another store over the same stream. -/
def countingStore : WindowedStore :=
  { windowSize := 4, bufferIndex := 0, window := [],
    stream := { length := 12, bytes := Memory.writeBytes [] 0 counting, gapFill := 0, oracle := .faultFree, overlong := 0 } }
def otherStore : OtherStore := { windowSize := 1, bufferIndex := 3, window := [3], eng := Engine.reset, parked := [] }

theorem witness_StoresShareTheStream :
    (let s := hosted (mkw .faultFree counting 0 0 0 0) [.buildStore 1]
     s.store = .windowed countingStore ∧ s.host = .buildStore 1 :: [] ∧ 1 ≠ 0) ∧
    (let s := { hosted (mkw .faultFree counting 0 0 0 0) [.selectStore 0] with others := [otherStore] }
     s.store = .windowed countingStore ∧ s.host = .selectStore 0 :: [] ∧ s.others[0]? = some otherStore) := by decide

theorem witness_StepKeepsInvariant :
    (hosted (mk scenario 0 3 45 0) [.write 0 5]).inv = true ∧ ∃ t, step (hosted (mk scenario 0 3 45 0) [.write 0 5]) = .next t :=
  ⟨by decide, (next_of_succeeds (i := .readBits) (s := (hosted (mk scenario 0 3 45 0) [.write 0 5]).taken.latchCmd 5)
    (by decide)).imp fun _ h => h.1⟩

theorem witness_CommandsKeepOperands : ∃ t, exec .seek (mk scenario 0 0 5 7) = .next t ∧ t.eng.status = 1 :=
  next_of_succeeds (by decide)

theorem witness_NonWritersKeepContent :
    (writtenWidth .readUe (mk scenario 0 0 0 0) = none ∧ ∃ t, exec .readUe (mk scenario 0 0 0 0) = .next t ∧ t.eng.status = 1) ∧
      (writtenWidth .writeBits (mk [0] 0 0 65 0) = none ∧ ∃ t, exec .writeBits (mk [0] 0 0 65 0) = .next t ∧ t.eng.status ≠ 1) :=
  ⟨⟨by decide, next_of_succeeds (by decide)⟩, by decide, next_of_fails (by decide)⟩

theorem witness_WritersKeepOtherBytes :
    let s := mk (zeros 4) 1 4 0 0xAB
    s.inv = true ∧ writtenWidth (.writeU8 .big) s = some 8 ∧ (∃ t, exec (.writeU8 .big) s = .next t ∧ t.eng.status = 1) ∧
      0 < s.store.length ∧ 0 < s.eng.cur.byte ∧ 3 < s.store.length ∧ s.eng.cur.byte + bytesTouched s.eng.cur.bit 8 ≤ 3 :=
  ⟨by decide, by decide, next_of_succeeds (by decide), by decide⟩

theorem witness_FailuresKeepSliceStores :
    let s := mk [0] 0 1 8 0xFF
    s.inv = true ∧ s.store = .slice { capacity := 1, buf := [] } ∧ ∃ t, exec .writeBits s = .next t ∧ t.eng.status ≠ 1 :=
  ⟨by decide, by decide, next_of_fails (by decide)⟩

theorem witness_FailedLookupFailsTheCommand :
    let s := failing 11 7 64 1
    Instr.writeSe ∈ [Instr.readU8 .big, .writeSe] ∧ 1 ≤ opCount s ∧ opCount s ≤ 64 ∧ opValue s ≠ 2 ^ 64 - 1 ∧
      opSigned s ≠ -2 ^ 63 ∧
      s.store = .windowed { countingStore with stream := { countingStore.stream with oracle := failsAfter 0 } } ∧
      WindowedStore.hit { countingStore with stream := { countingStore.stream with oracle := failsAfter 0 } } 11 = none ∧
      (Stream.draw { countingStore.stream with oracle := failsAfter 0 }).1 = some badDraw := by decide

theorem witness_RemainingBitsResponds :
    ((mk [] 7 0 0 0).inv = true ∧ (mk [] 7 0 0 0).eng.opa = 0) ∧
    (let s := mkw .faultFree counting 11 4 4 0
     s.inv = true ∧ s.store.quiet = true ∧ s.store.hasBits s.eng.cur s.eng.opa.toNat) ∧
    (let s := mkw .faultFree counting 11 4 5 0
     s.inv = true ∧ s.store.quiet = true ∧ ¬ s.store.hasBits s.eng.cur s.eng.opa.toNat) ∧
    (let s := failing 0 0 1 0
     s.inv = true ∧ (walk s.eng.opa.toNat s.eng.cur s.store).1 = .error .io) ∧
    walks 4 (mkw .faultFree counting 11 4 4 0) = true := by decide

theorem witness_PeekBitsResponds :
    ((mk [] 0 0 65 0).inv = true ∧ (mk [] 0 0 65 0).eng.opa.toNat > 64) ∧
    ((mk [] 7 0 0 0).inv = true ∧ (mk [] 7 0 0 0).eng.opa = 0) ∧
    (let s := mkw .faultFree counting 4 0 64 0
     s.inv = true ∧ s.eng.opa.toNat ≤ 64 ∧ s.store.quiet = true ∧ s.store.hasBits s.eng.cur s.eng.opa.toNat) ∧
    (let s := mk scenario 5 7 2 0
     s.inv = true ∧ s.eng.opa.toNat ≤ 64 ∧ s.store.quiet = true ∧ ¬ s.store.hasBits s.eng.cur s.eng.opa.toNat) ∧
    (let s := failing 4 0 64 0
     s.inv = true ∧ s.eng.opa.toNat ≤ 64 ∧ (walk s.eng.opa.toNat s.eng.cur s.store).1 = .error .io) ∧
    ((walk 2 (mk scenario 5 7 2 0).eng.cur (mk scenario 5 7 2 0).store).1 = .error .oob ∧ walks 64 (mkw .faultFree counting 4 0 64 0) = true) := by decide

theorem witness_ConsumeBitsResponds :
    ((mk [] 7 0 0 0).inv = true ∧ (mk [] 7 0 0 0).eng.opa = 0) ∧
    (let s := mk scenario 0 0 48 0
     s.inv = true ∧ s.store.quiet = true ∧ s.store.hasBits s.eng.cur s.eng.opa.toNat) ∧
    (let s := mk scenario 0 0 0xFFFFFFFFFFFFFFFF 0
     s.inv = true ∧ s.store.quiet = true ∧ ¬ s.store.hasBits s.eng.cur s.eng.opa.toNat) ∧
    (let s := failing 11 0 0xFFFFFFFFFFFFFFFF 0
     s.inv = true ∧ (walk s.eng.opa.toNat s.eng.cur s.store).1 = .error .io) ∧
    walks 48 (mk scenario 0 0 48 0) = true := by decide

theorem witness_ConsumeBytesResponds :
    ((mk [] 7 0 0 0).inv = true ∧ (mk [] 7 0 0 0).eng.opa = 0) ∧
    (let s := mk scenario 0 0 6 0
     s.inv = true ∧ s.store.quiet = true ∧ s.store.hasBits s.eng.cur (8 * s.eng.opa.toNat)) ∧
    (let s := mk scenario 0 1 6 0
     s.inv = true ∧ s.store.quiet = true ∧ ¬ s.store.hasBits s.eng.cur (8 * s.eng.opa.toNat)) ∧
    (let s := failing 0 1 6 0
     s.inv = true ∧ (walk (8 * s.eng.opa.toNat) s.eng.cur s.store).1 = .error .io) ∧
    walks (8 * 6) (mk scenario 0 0 6 0) = true := by decide

theorem witness_ReadBitsResponds :
    ((mk [] 0 0 65 0).inv = true ∧ (mk [] 0 0 65 0).eng.opa.toNat > 64) ∧
    ((mk [] 7 0 0 0).inv = true ∧ (mk [] 7 0 0 0).eng.opa = 0) ∧
    (let s := mk scenario 0 3 45 0
     s.inv = true ∧ s.eng.opa.toNat ≤ 64 ∧ s.store.quiet = true ∧ s.store.hasBits s.eng.cur s.eng.opa.toNat) ∧
    (let s := mk scenario 0 3 46 0
     s.inv = true ∧ s.eng.opa.toNat ≤ 64 ∧ s.store.quiet = true ∧ ¬ s.store.hasBits s.eng.cur s.eng.opa.toNat) ∧
    (let s := failing 0 0 1 0
     s.inv = true ∧ s.eng.opa.toNat ≤ 64 ∧ (walk s.eng.opa.toNat s.eng.cur s.store).1 = .error .io) ∧
    walks 45 (mk scenario 0 3 45 0) = true := by decide

theorem witness_RemainingAgreesWithConsume :
    (∃ t, exec .remainingBits (mk scenario 5 4 4 0) = .next t ∧ t.eng.status = 1) ∧
      ∃ u, exec .consumeBits (mk scenario 5 4 4 0) = .next u ∧ u.eng.status = 1 :=
  ⟨next_of_succeeds (by decide), next_of_succeeds (by decide)⟩

theorem witness_RemainingPredictsConsume :
    let s := mk scenario 5 4 4 0
    s.inv = true ∧ s.store.quiet = true ∧ ∃ t, exec .remainingBits s = .next t ∧ ∃ u, exec .consumeBits t = .next u ∧ u.eng.status = 1 :=
  ⟨by decide, by decide, _, rfl, next_of_succeeds (by decide)⟩

theorem witness_ReadIsPeekThenConsume :
    let s := mk scenario 0 3 12 0
    s.eng.opa.toNat ≤ 64 ∧ (∃ p, exec .peekBits s = .next p ∧ p.eng.status = 1) ∧
      (∃ c, exec .consumeBits s = .next c ∧ c.eng.status = 1) ∧ ∃ r, exec .readBits s = .next r ∧ r.eng.status = 1 :=
  ⟨by decide, next_of_succeeds (by decide), next_of_succeeds (by decide), next_of_succeeds (by decide)⟩

theorem witness_BitExtractionEffects :
    Instr.peekBits ∈ [Instr.remainingBits, .peekBits, .consumeBits, .consumeBytes, .readBits] ∧
      (∃ t, exec .peekBits (mk scenario 0 3 12 0) = .next t ∧ t.eng.status = 1) ∧
      ∃ t, exec .readBits (mk scenario 0 3 46 0) = .next t ∧ t.eng.status ≠ 1 :=
  ⟨by decide, next_of_succeeds (by decide), next_of_fails (by decide)⟩

theorem witness_ReadUintResponds :
    (Instr.readU64 .little, 8, (0x0B : CmdWord)) ∈
      [(Instr.readU8 .little, 1, 0x08), (.readU16 .little, 2, 0x09), (.readU32 .little, 4, 0x0A), (.readU64 .little, 8, 0x0B)] ∧
    (let s := mk (scenario ++ [0x11, 0x22]) 0 0 0 0
     s.inv = true ∧ s.store.quiet = true ∧ s.store.hasBits s.eng.cur (8 * 8)) ∧
    (let s := mk (scenario ++ [0x11, 0x22]) 0 1 0 0
     s.inv = true ∧ s.store.quiet = true ∧ ¬ s.store.hasBits s.eng.cur (8 * 8)) ∧
    (let s := failing 0 1 0 0
     s.inv = true ∧ (walk (8 * 8) s.eng.cur s.store).1 = .error .io) ∧
    walks 64 (mk (scenario ++ [0x11, 0x22]) 0 0 0 0) = true := by decide

theorem witness_ByteOrderChangesOnlyTheValue :
    (∃ t, exec (.readU32 .big) (mk scenario 0 7 0 0) = .next t ∧ t.eng.status = 1) ∧
      ∃ u, exec (.readU32 .little) (mk scenario 0 7 0 0) = .next u ∧ u.eng.status = 1 :=
  ⟨next_of_succeeds (by decide), next_of_succeeds (by decide)⟩

theorem witness_SeekResponds :
    ((mk scenario 2 2 0 8).inv = true ∧ (mk scenario 2 2 0 8).eng.opb.toNat > 7) ∧
    (let s := mk scenario 2 2 0xFFFFFFFFFFFFFFFF 7
     s.inv = true ∧ s.eng.opb.toNat ≤ 7 ∧ s.eng.opa.toInt < 0) ∧
    (let s := mk scenario 2 2 5 7
     s.inv = true ∧ s.eng.opb.toNat ≤ 7 ∧ 0 ≤ s.eng.opa.toInt ∧ s.store.quiet = true ∧ s.eng.opa.toNat < s.store.length) ∧
    (let s := mk scenario 2 2 6 0
     s.inv = true ∧ s.eng.opb.toNat ≤ 7 ∧ 0 ≤ s.eng.opa.toInt ∧ s.store.quiet = true ∧ s.store.length ≤ s.eng.opa.toNat) ∧
    (let s := failing 2 2 0x7FFFFFFFFFFFFFFF 0
     s.inv = true ∧ s.eng.opb.toNat ≤ 7 ∧ 0 ≤ s.eng.opa.toInt ∧ (s.store.lookup s.eng.opa.toNat).1 = .error .io) ∧
    ((mk scenario 2 2 6 0).store.lookup 6).1 = .error .oob ∧ ((mk scenario 2 2 5 7).store.lookup 5).1 = .ok 0x8A := by decide

theorem witness_SavePosResponds : (mk scenario (2 ^ 63 - 1) 7 0 0).inv = true := by decide

theorem witness_RestorePosResponds :
    (mk [] 0 0 0 8).eng.opb.toNat > 7 ∧ (mk [] 0 0 0xFFFFFFFFFFFFFFFF 0).eng.opa.toInt < 0 ∧
      ((mk [] 0 0 0x7FFFFFFFFFFFFFFF 7).eng.opb.toNat ≤ 7 ∧ 0 ≤ (mk [] 0 0 0x7FFFFFFFFFFFFFFF 7).eng.opa.toInt) := by decide

theorem witness_RestoreBringsBackTheSavedCursor :
    (mk scenario 4 2 0 0).inv = true ∧ ∃ t, exec .savePos (mk scenario 4 2 0 0) = .next t ∧
      (mk [] 0 0 4 2).eng.opa = t.eng.res0 ∧ (mk [] 0 0 4 2).eng.opb = t.eng.res1 :=
  ⟨by decide, _, rfl, by decide, by decide⟩

/-- Seven zero bytes, `01`, and eight bytes: the longest code word a store can hold, 127 bits. -/
def longCode (last : Byte) : List Byte := zeros 7 ++ [0x01] ++ List.replicate 8 last

set_option maxRecDepth 4000 in
theorem witness_ReadUeDecodesCodeWords :
    (let s := mk [0xFF] 0 7 0 0
     s.inv = true ∧ s.store.quiet = true ∧ s.store.content.codeAt s.eng.cur.address 0 ∧
       s.eng.cur.address + (2 * 0 + 1) ≤ 8 * s.store.length) ∧
    (let s := mk (longCode 0xFF) 0 0 0 0
     s.inv = true ∧ s.store.quiet = true ∧ 63 ≤ 63 ∧ s.store.content.codeAt s.eng.cur.address 63 ∧
       s.eng.cur.address + (2 * 63 + 1) ≤ 8 * s.store.length) := by decide

set_option maxRecDepth 4000 in
theorem witness_CodeWordFailures :
    (let s := mk (zeros 8) 0 0 0 0
     s.inv = true ∧ s.store.quiet = true ∧ s.store.content.fieldAt s.eng.cur.address 64 = 0 ∧
       s.eng.cur.address + 64 ≤ 8 * s.store.length) ∧
    (let s := mkw .faultFree (zeros 7) 0 0 0 0
     s.inv = true ∧ s.store.quiet = true ∧ 56 < 64 ∧ s.store.content.fieldAt s.eng.cur.address 56 = 0 ∧
       s.eng.cur.address + 56 = 8 * s.store.length) ∧
    (let s := mk [] 0 0 0 0
     s.inv = true ∧ s.store.quiet = true ∧ 8 * s.store.length ≤ s.eng.cur.address) ∧
    (let s := mk [0x01] 0 0 0 0
     s.inv = true ∧ s.store.quiet = true ∧ 7 ≤ 63 ∧ s.store.content.codeAt s.eng.cur.address 7 ∧
       s.eng.cur.address + 7 < 8 * s.store.length ∧ 8 * s.store.length < s.eng.cur.address + (2 * 7 + 1)) := by decide

set_option maxRecDepth 4000 in
theorem witness_ReadSeDecodesCodeWords :
    let s := mk (longCode 0xFF) 0 0 0 0
    s.inv = true ∧ s.store.quiet = true ∧ 63 ≤ 63 ∧ s.store.content.codeAt s.eng.cur.address 63 ∧
      s.eng.cur.address + (2 * 63 + 1) ≤ 8 * s.store.length ∧
      2 ^ 64 - 2 = s.store.content.fieldAt (s.eng.cur.address + 63) (63 + 1) - 1 := by decide

/-- The stores after `i` one-bit walks along zero bits. -/
def afterWalks (s : State) : Nat → Store
  | 0 => s.store
  | i + 1 => (walk 1 (cursorAt (s.eng.cur.address + i)) (afterWalks s i)).2

/-- The field of one bit at bit `i` after the cursor, on the store after `i` one-bit walks; the reason if its walk fails. -/
def scanned (s : State) (i : Nat) : Except Reason Nat :=
  match (walk 1 (cursorAt (s.eng.cur.address + i)) (afterWalks s i)).1 with
  | .ok bs => .ok (field bs (cursorAt (s.eng.cur.address + i)).bit 1)
  | .error r => .error r

theorem witness_ReadUeOnAnyStore :
    (let s := mkw (failsAfter 1) counting 1 5 0 0
     afterWalks s 0 = s.store ∧ scanned s 0 = .ok 0 ∧ scanned s 1 = .ok 0 ∧ scanned s 2 = .ok 1 ∧
       walks 3 { s with eng := { s.eng with cur := cursorAt (s.eng.cur.address + 2) }, store := afterWalks s 3 } = true) ∧
    (let s := failing 1 5 0 0
     afterWalks s 0 = s.store ∧ scanned s 0 = .error .io) ∧
    (let s := mk [0x01] 0 6 0 0
     scanned s 0 = .ok 0 ∧ scanned s 1 = .ok 1 ∧ walks 2 { s with eng := { s.eng with cur := ⟨0, 7⟩ } } = false) ∧
    (let s := mk (zeros 8) 0 0 0 0
     (List.range 63).all (fun i => scanned s i == .ok 0) = true ∧ scanned s 63 = .ok 0) := by decide

theorem witness_ReadSeIsSignedReadUe :
    (mk scenario 1 3 0 0).inv = true ∧ (∃ t, exec .readUe (mk scenario 1 3 0 0) = .next t ∧ t.eng.status = 1) ∧
      ∃ u, exec .readSe (mk scenario 1 3 0 0) = .next u ∧ u.eng.status = 1 :=
  ⟨by decide, next_of_succeeds (by decide), next_of_succeeds (by decide)⟩

theorem witness_CodeReadsConsumeTheCodeWord :
    (Instr.readUe ∈ [Instr.readUe, .readSe] ∧ (mk scenario 1 3 0 0).inv = true ∧ (mk scenario 1 3 0 0).store.quiet = true ∧
      ∃ t, exec .readUe (mk scenario 1 3 0 0) = .next t ∧ t.eng.status = 1) ∧
    (Instr.readSe ∈ [Instr.readUe, .readSe] ∧ (mk (zeros 8) 0 0 0 0).inv = true ∧ (mk (zeros 8) 0 0 0 0).store.quiet = true ∧
      ∃ t, exec .readSe (mk (zeros 8) 0 0 0 0) = .next t ∧ t.eng.status ≠ 1) :=
  ⟨⟨by decide, by decide, by decide, next_of_succeeds (by decide)⟩, by decide, by decide, by decide, next_of_fails (by decide)⟩

theorem witness_WriteBitsResponds :
    ((mk [] 0 0 65 0).inv = true ∧ (mk [] 0 0 65 0).eng.opa.toNat > 64) ∧
    ((mk [] 7 0 0 0).inv = true ∧ (mk [] 7 0 0 0).eng.opa = 0) ∧
    (let s := mkw .faultFree counting 4 0 64 0xFFFFFFFFFFFFFFFF
     s.inv = true ∧ 1 ≤ s.eng.opa.toNat ∧ s.eng.opa.toNat ≤ 64 ∧ s.store.quiet = true ∧
       s.store.hasBits s.eng.cur s.eng.opa.toNat) ∧
    (let s := mk [0] 0 1 8 0xFF
     s.inv = true ∧ s.eng.opa.toNat ≤ 64 ∧ s.store.quiet = true ∧ ¬ s.store.hasBits s.eng.cur s.eng.opa.toNat) ∧
    (let s := failing 4 0 64 0
     s.inv = true ∧ s.eng.opa.toNat ≤ 64 ∧ (walk s.eng.opa.toNat s.eng.cur s.store).1 = .error .io) ∧
    (putEnds 64 0 (mkw .faultFree counting 4 0 64 0) = some .stored ∧ putEnds 8 1 (mkw (failsAfter 1) (zeros 2) 0 0 8 1) = some .ioFailed) := by decide

theorem witness_WriteUintResponds :
    (Instr.writeU32 .big, 4, (0x2A : CmdWord)) ∈
      [(Instr.writeU8 .big, 1, 0x28), (.writeU16 .big, 2, 0x29), (.writeU32 .big, 4, 0x2A), (.writeU64 .big, 8, 0x2B)] ∧
    (let s := mk (zeros 4) 0 0 0 0xDEADBEEF
     s.inv = true ∧ s.store.quiet = true ∧ s.store.hasBits s.eng.cur (8 * 4)) ∧
    (let s := mk (zeros 4) 0 1 0 0xDEADBEEF
     s.inv = true ∧ s.store.quiet = true ∧ ¬ s.store.hasBits s.eng.cur (8 * 4)) ∧
    (let s := failing 0 1 0 0
     s.inv = true ∧ (walk (8 * 4) s.eng.cur s.store).1 = .error .io) ∧
    (putEnds 32 0 (mk (zeros 4) 0 0 0 0xDEADBEEF) = some .stored ∧ putEnds 32 0 (mkw (failsAfter 1) (zeros 4) 0 0 0 0) = some .ioFailed) := by decide

theorem witness_FailedPutFailsTheWrite :
    let s := mkw (failsAfter 1) (zeros 2) 0 0 0 0xAB
    let w : WindowedStore :=
      { windowSize := 4, bufferIndex := 0, window := zeros 2,
        stream := { length := 2, bytes := [], gapFill := 0, oracle := failsAfter 0, overlong := 0 } }
    (writtenWidth (.writeU8 .big) s = some 8 ∧ 8 ≠ 0 ∧ (walk 8 s.eng.cur s.store).1 = .ok [0] ∧
      (walk 8 s.eng.cur s.store).2 = .windowed w ∧ ([0] : List Byte) ≠ [] ∧ w.stream.draw.1 = some badDraw) ∧
      ∃ t, exec (.writeU8 .big) s = .next t ∧ t.eng.status ≠ 1 :=
  ⟨by decide, next_of_fails (by decide)⟩

theorem witness_WriteReadBitsRoundTrip :
    let s := mk (List.replicate 9 0xFF) 0 7 64 0
    s.inv = true ∧ s.store.quiet = true ∧ ∃ t, exec .writeBits s = .next t ∧ t.eng.status = 1 :=
  ⟨by decide, by decide, next_of_succeeds (by decide)⟩

theorem witness_WriteReadUintRoundTrip :
    let s := mk (zeros 9) 0 1 0 0x0102030405060708
    s.inv = true ∧ s.store.quiet = true ∧ ∃ t, exec (.writeU64 .little) s = .next t ∧ t.eng.status = 1 :=
  ⟨by decide, by decide, next_of_succeeds (by decide)⟩

theorem witness_WriteUeResponds :
    ((mk [] 0 0 0 0xFFFFFFFFFFFFFFFF).inv = true ∧ (mk [] 0 0 0 0xFFFFFFFFFFFFFFFF).eng.opb.toNat = 2 ^ 64 - 1) ∧
    (let s := mk (zeros 16) 0 1 0 0xFFFFFFFFFFFFFFFE
     s.inv = true ∧ 127 = 2 * (Nat.log2 (s.eng.opb.toNat + 1) + 1) - 1 ∧ s.eng.opb.toNat ≠ 2 ^ 64 - 1 ∧ s.store.quiet = true ∧
       s.store.hasBits s.eng.cur 127) ∧
    (let s := mk (zeros 8) 0 0 0 0xFFFFFFFF
     s.inv = true ∧ 65 = 2 * (Nat.log2 (s.eng.opb.toNat + 1) + 1) - 1 ∧ s.eng.opb.toNat ≠ 2 ^ 64 - 1 ∧ s.store.quiet = true ∧
       ¬ s.store.hasBits s.eng.cur 65) ∧
    (let s := failing 0 0 0 0
     s.inv = true ∧ 1 = 2 * (Nat.log2 (s.eng.opb.toNat + 1) + 1) - 1 ∧ s.eng.opb.toNat ≠ 2 ^ 64 - 1 ∧
       (walk 1 s.eng.cur s.store).1 = .error .io) ∧
    (putEnds 1 1 (mk [0] 0 0 0 0) = some .stored ∧ putEnds 1 1 (mkw (failsAfter 1) (zeros 4) 0 0 0 0) = some .ioFailed) := by decide

theorem witness_WriteSeResponds :
    (let s := mk [] 0 0 0 0x8000000000000000
     s.inv = true ∧ ((2 ^ 64 : Nat) : Int) = 2 * -s.eng.opb.toInt ∧ s.eng.opb.toInt = -2 ^ 63) ∧
    (let s := mk (zeros 16) 0 1 0 0x8000000000000001
     s.inv = true ∧ ((2 ^ 64 - 2 : Nat) : Int) = 2 * -s.eng.opb.toInt ∧ 127 = 2 * (Nat.log2 (2 ^ 64 - 2 + 1) + 1) - 1 ∧
       s.eng.opb.toInt ≠ -2 ^ 63 ∧ s.store.quiet = true ∧ s.store.hasBits s.eng.cur 127) ∧
    (let s := mk (zeros 16) 0 2 0 0x7FFFFFFFFFFFFFFF
     s.inv = true ∧ ((2 ^ 64 - 3 : Nat) : Int) = 2 * s.eng.opb.toInt - 1 ∧ 127 = 2 * (Nat.log2 (2 ^ 64 - 3 + 1) + 1) - 1 ∧
       s.eng.opb.toInt ≠ -2 ^ 63 ∧ s.store.quiet = true ∧ ¬ s.store.hasBits s.eng.cur 127) ∧
    (let s := failing 0 0 0 0
     s.inv = true ∧ s.eng.opb.toInt = 0 ∧ s.eng.opb.toInt ≠ -2 ^ 63 ∧ (walk 1 s.eng.cur s.store).1 = .error .io) ∧
    (putEnds 1 1 (mk [0] 0 0 0 0) = some .stored ∧ putEnds 1 1 (mkw (failsAfter 1) (zeros 4) 0 0 0 0) = some .ioFailed) := by decide

theorem witness_UeRoundTrip :
    let s := mk (zeros 16) 0 1 0 0xFFFFFFFFFFFFFFFE
    s.inv = true ∧ s.store.quiet = true ∧ ∃ t, exec .writeUe s = .next t ∧ t.eng.status = 1 :=
  ⟨by decide, by decide, next_of_succeeds (by decide)⟩

theorem witness_SeRoundTrip :
    let s := mk (zeros 16) 0 1 0 0x8000000000000001
    s.inv = true ∧ s.store.quiet = true ∧ ∃ t, exec .writeSe s = .next t ∧ t.eng.status = 1 :=
  ⟨by decide, by decide, next_of_succeeds (by decide)⟩

theorem witness_SignedMappingRange :
    (2 ^ 64 - 2 ≤ 2 ^ 64 - 2 ∧ (2 ^ 64 - 2) % 2 = 0) ∧ (2 ^ 64 - 3 ≤ 2 ^ 64 - 2 ∧ (2 ^ 64 - 3) % 2 = 1) := by decide

theorem witness_SliceAtAndPut :
    (Store.slice { capacity := 6, buf := Memory.writeBytes [] 0 scenario }).wf = true ∧
      ((0 : Int) ≤ 5 ∧ (5 : Int) < (6 : Nat)) ∧ (-1 : Int) < 0 ∧
      ((0 : Int) ≤ 5 ∧ [(1 : Byte), 2] ≠ [] ∧ (5 : Int) + ([(1 : Byte), 2].length : Nat) > (6 : Nat)) ∧
      ((0 : Int) ≤ 4 ∧ [(1 : Byte), 2] ≠ [] ∧ (4 : Int) + ([(1 : Byte), 2].length : Nat) ≤ (6 : Nat)) := by decide

theorem witness_SliceSliceAndLength :
    ((0 : Int) ≤ 0 ∨ (4 : Int) < 0 ∨ ((6 : Nat) : Int) ≤ 4) ∧ ((2 : Int) ≤ 0 ∨ (6 : Int) < 0 ∨ ((6 : Nat) : Int) ≤ 6) ∧
      ((0 : Int) < 10 ∧ (0 : Int) ≤ 5 ∧ (5 : Int) < (6 : Nat)) := by decide

theorem witness_WindowedAt :
    (let w : WindowedStore := { countingStore with bufferIndex := 2, window := [2, 3, 4, 5] }
     w.bufferIndex ≤ 5 ∧ w.window[5 - w.bufferIndex]? = some 5) ∧
    (let w : WindowedStore := { countingStore with stream := { countingStore.stream with oracle := failsAfter 0 } }
     ¬ (w.bufferIndex ≤ 0 ∧ 0 < w.bufferIndex + w.window.length) ∧ w.stream.draw.1 = some badDraw) ∧
    (let w : WindowedStore := { countingStore with bufferIndex := 2, window := [2, 3, 4, 5] }
     ¬ (w.bufferIndex ≤ 6 ∧ 6 < w.bufferIndex + w.window.length) ∧ w.stream.draw.1 = none ∧ 6 < w.stream.length ∧
       w.windowSize ≠ 0) ∧
    (¬ (countingStore.bufferIndex ≤ 12 ∧ 12 < countingStore.bufferIndex + countingStore.window.length) ∧
      countingStore.stream.draw.1 = none ∧ countingStore.stream.length ≤ 12) := by decide

theorem witness_QuietStoresArePlainMemory :
    (Store.windowed countingStore).quiet = true ∧ 2 ^ 63 - 1 ≤ Config.maxOffset ∧ 11 < (Store.windowed countingStore).length ∧
      (Store.windowed countingStore).length ≤ 12 := by decide

theorem witness_PatchedWindowShowsTheWrite :
    let w : WindowedStore := { countingStore with bufferIndex := 2, window := [2, 3, 4, 5] }
    (∃ w', w.put (List.replicate 8 0x11) 0 = (.stored, w')) ∧ w.hit 2 = some 2 ∧ w.hit 5 = some 5 :=
  ⟨⟨_, rfl⟩, by decide⟩

theorem witness_FailedPutLeavesOldOrNewBytes :
    let w : WindowedStore := { countingStore with stream := { countingStore.stream with oracle := failsAfter 0 } }
    ((Store.windowed w).wf = true ∧ (∃ w', w.put [0x11] 11 = (.ioFailed, w')) ∧ 11 < w.stream.length) ∧
      ([0x11] : List Byte) ≠ [] ∧ Config.maxOffset < Config.maxOffset + ([0x11] : List Byte).length :=
  ⟨⟨by decide, ⟨_, rfl⟩, by decide⟩, by decide, by decide⟩

/-- Building an engine over a `WINDOWED` store empties its window, at 0 (10_state.md R41). -/
theorem test_build_engine_empties_the_window :
    let w : WindowedStore := { countingStore with bufferIndex := 2, window := [2, 3, 4, 5] }
    (answered (hostServe .buildEngine { State.reset with store := .windowed w })).map (fun t => windowOf t.store) =
      some (some (0, [])) := by decide

/-- A host's `Put` whose last byte would stand at offset `2^63 - 1` runs: it answers false and empties the window
(00_scope.md R10, 20_memory.md R69; log entry 7). -/
theorem test_put_past_max_offset :
    let w : WindowedStore := { countingStore with bufferIndex := 2, window := [2, 3, 4, 5] }
    (answered (hostServe (.storePut (some [0x11]) 0x7FFFFFFFFFFFFFFF) { State.reset with store := .windowed w })).map
      (fun t => (t.answer, (windowOf t.store).map (·.2))) = some (.stored false, some []) := by rfl

theorem witness_HostResetEmptiesTheWindow :
    let s := hosted (mkw .faultFree counting 0 0 0 0) [.storeReset]
    s.store = .windowed countingStore ∧ s.host = .storeReset :: [] := by decide

theorem witness_StaleWindowAnswers :
    let w : WindowedStore := { countingStore with bufferIndex := 2, window := [2, 3, 4, 5] }
    let s := { hosted State.reset [.streamWrite 5 [0x11, 0x22]] with store := .windowed w }
    s.store = .windowed w ∧ s.host = .streamWrite 5 [0x11, 0x22] :: [] ∧ 5 + ([0x11, 0x22] : List Byte).length ≤ Config.maxOffset ∧
      w.hit 5 = some 5 ∧ (Store.windowed w).wf = true ∧ 1 < ([0x11, 0x22] : List Byte).length := by decide

end Sys2Proof.Tests
end

section
/-! One lemma per branch of `step` and of the host's register accesses (10_state.md R24, R25). -/

namespace Sys2Proof.Machine

/-! ### The branches of a step -/

theorem step_of_idle {s : State} (h : s.host = []) : step s = .next s := by
  rw [step, h]

theorem step_of_command {s : State} {a : HostAction} {rest : List HostAction} {w : CmdWord} (h : s.host = a :: rest)
    (hw : commandOf a = some w) : step s = exec (decode w) (s.taken.latchCmd w) := by
  rw [step, h]
  simp only [hw]

theorem step_of_serve {s : State} {a : HostAction} {rest : List HostAction} (h : s.host = a :: rest)
    (hw : commandOf a = none) : step s = hostServe a s.taken := by
  rw [step, h]
  simp only [hw]

/-- Taking an action off leaves the rest of the host's actions and no answer. -/
theorem State.taken_eq {s : State} {a : HostAction} {rest : List HostAction} (h : s.host = a :: rest) :
    s.taken = { s with host := rest, answer := .nothing } := by
  rw [State.taken, h, List.tail_cons]

/-! ### Register accesses -/

/-- CMD takes a 32-bit word through the 64-bit bus unchanged (log entry 11). -/
theorem commandOf_write_cmd (w : CmdWord) : commandOf (.write 0 (w.setWidth 64)) = some w := by
  simp only [commandOf, Option.some.injEq]
  rw [BitVec.setWidth_setWidth_of_le _ (by decide), BitVec.setWidth_eq]

theorem commandOf_write_of_ne {n : Nat} (hn : n ≠ 0) (v : Word) : commandOf (.write n v) = none := by
  cases n with
  | zero => exact absurd rfl hn
  | succ n => rfl

theorem readRegister_eq (e : Engine) (n : Nat) :
    readRegister e n =
      if n = 0 then e.cmd.setWidth 64 else if n = 1 then e.status.setWidth 64 else if n = 2 then e.opa
        else if n = 3 then e.opb else if n = 4 then e.res0 else if n = 5 then e.res1 else 0 := by
  match n with
  | 0 | 1 | 2 | 3 | 4 | 5 => rfl
  | n + 6 => simp [readRegister]

theorem writeRegister_eq (e : Engine) (n : Nat) (v : Word) :
    writeRegister e n v = { e with opa := if n = 2 then v else e.opa, opb := if n = 3 then v else e.opb } := by
  match n with
  | 0 | 1 | 2 | 3 => rfl
  | n + 4 => simp [writeRegister]

end Sys2Proof.Machine
end

section
/-! Every store operation of the host, and every host action, keeps the invariant (10_state.md R22, R37; 20_memory.md R52 to R74; 60_exceptions.md R215, R216). -/

namespace Sys2Proof.Machine

/-! ### Lists of engines and stores put aside -/

theorem all_set_of_all {α : Type} {p : α → Bool} {l : List α} (h : l.all p = true) (k : Nat) {a : α} (ha : p a = true) :
    (l.set k a).all p = true := by
  rw [List.all_eq_true] at h ⊢
  intro x hx
  rcases List.mem_or_eq_of_mem_set hx with hx | rfl
  · exact h x hx
  · exact ha

theorem all_eraseIdx_of_all {α : Type} {p : α → Bool} {l : List α} (h : l.all p = true) (k : Nat) :
    (l.eraseIdx k).all p = true := by
  rw [List.all_eq_true] at h ⊢
  exact fun x hx => h x (List.mem_of_mem_eraseIdx hx)

/-! ### Store operations of the host -/

/-- The byte offset of a signed 64-bit operand is at most MAX_OFFSET (00_scope.md R10). -/
theorem toNat_toInt_le_maxOffset (w : Word) : w.toInt.toNat ≤ Config.maxOffset := by
  have := BitVec.toInt_lt (x := w)
  simp only [Config.maxOffset]
  omega

/-- A stream call that only reads moves the oracle and keeps the store well formed (20_memory.md R70). -/
theorem Store.wf_draw {w : WindowedStore} (h : (Store.windowed w).wf = true) :
    (Store.windowed { w with stream := w.stream.draw.2 }).wf = true := by
  obtain ⟨hlen, hbytes, _⟩ := w.stream.draw_same
  rw [Store.wf_windowed] at h ⊢
  simpa only [hlen, hbytes] using h

theorem Store.wf_at {st : Store} (h : st.wf = true) (o : Word) : (st.at o.toInt).2.wf = true := by
  have hl := Store.wf_lookup h (toNat_toInt_le_maxOffset o)
  rw [Store.at]
  split_ifs
  · exact h
  · rcases he : st.lookup o.toInt.toNat with ⟨_ | _, st'⟩ <;> simpa only [he] using hl

theorem Store.wf_sliceBytes {st : Store} (h : st.wf = true) (o len : Int) : (st.sliceBytes o len).2.wf = true := by
  unfold Store.sliceBytes
  split_ifs
  · exact h
  · cases st with
    | slice b => exact h
    | windowed w =>
      have hd := Store.wf_draw h
      rcases he : w.stream.draw with ⟨_ | _, str⟩ <;> simpa only [he] using hd

theorem Store.wf_reportLength {st : Store} (h : st.wf = true) : st.reportLength.2.wf = true := by
  cases st with
  | slice b => exact h
  | windowed w =>
    have hd := Store.wf_draw h
    rw [Store.reportLength]
    rcases he : w.stream.draw with ⟨_ | _, str⟩ <;> simpa only [he] using hd

theorem Store.wf_putChecked {st : Store} (h : st.wf = true) (bytes : Option (List Byte)) (o : Int) :
    (st.putChecked bytes o).2.wf = true := by
  unfold Store.putChecked
  split_ifs
  · exact h
  · cases bytes with
    | none => exact h
    | some bs =>
      have hp := Store.wf_put h bs o.toNat
      rcases he : st.put bs o.toNat with ⟨_ | _ | _, st'⟩ <;> simpa only [he] using hp

theorem Store.wf_invalidate {w : WindowedStore} (h : (Store.windowed w).wf = true) : (Store.windowed w.invalidate).wf = true := by
  obtain ⟨hfit, hsize, _, hend⟩ := Store.wf_windowed.mp h
  exact Store.wf_windowed.mpr ⟨hfit, hsize, Nat.zero_le _, le_trans (Nat.le_add_right _ _) hend⟩

/-- A store over another stream that fits keeps its window within bounds (20_memory.md R74). -/
theorem Store.wf_withStream {w : WindowedStore} (h : (Store.windowed w).wf = true) {str : Stream}
    (hs : str.bytes.fits str.length = true) : (Store.windowed { w with stream := str }).wf = true :=
  Store.wf_windowed.mpr ⟨hs, (Store.wf_windowed.mp h).2⟩

theorem Memory.fits_truncate {m : Memory} {len : Nat} (h : m.fits len = true) (n : Nat) :
    (m.truncate n).fits (min len n) = true := by
  obtain ⟨hwf, hbelow, hlen⟩ := Memory.fits_iff.mp h
  exact Memory.fits_iff.mpr ⟨Memory.wf_truncate hwf n, Memory.below_truncate hbelow n, (min_le_left _ _).trans hlen⟩

/-- The bytes a store is built over are canonical content of a store of that length. -/
theorem Memory.fits_ofBytes {bytes : List Byte} (h : bytes.length ≤ Config.maxOffset) :
    (Memory.writeBytes [] 0 bytes).fits bytes.length = true :=
  Memory.fits_iff.mpr ⟨Memory.wf_writeBytes rfl 0 bytes, Memory.below_writeBytes rfl bytes (Nat.zero_add _).le, h⟩

/-! ### The parts of the invariant that a host action replaces -/

theorem Engine.wf_reset : Engine.reset.wf = true := by decide

theorem Engine.wf_writeRegister {e : Engine} (h : e.wf = true) (n : Nat) (v : Word) : (writeRegister e n v).wf = true := by
  rw [writeRegister_eq]
  exact h

/-- The invariant, part by part. -/
theorem State.inv_iff_parts {s : State} :
    s.inv = true ↔ s.eng.wf = true ∧ s.store.wf = true ∧ s.parked.all Engine.wf = true ∧ s.others.all OtherStore.wf = true := by
  simp only [State.inv, Bool.and_eq_true, and_assoc]

theorem OtherStore.wf_iff {o : OtherStore} :
    o.wf = true ↔ (1 ≤ o.windowSize ∧ o.window.length ≤ o.windowSize ∧ o.bufferIndex + o.window.length ≤ Config.maxOffset) ∧
      o.eng.wf = true ∧ o.parked.all Engine.wf = true := by
  simp only [OtherStore.wf, Bool.and_eq_true, decide_eq_true_eq, and_assoc]

theorem OtherStore.wf_newOther {n : Nat} (hn : n ≠ 0) : (newOther n).wf = true :=
  OtherStore.wf_iff.mpr ⟨⟨Nat.one_le_iff_ne_zero.mpr hn, Nat.zero_le _, Nat.zero_le _⟩, Engine.wf_reset, rfl⟩

/-- The store in use is put aside well formed (60_exceptions.md R216). -/
theorem OtherStore.wf_asOther {s : State} {w : WindowedStore} (h : s.inv = true) (hw : s.store = .windowed w) :
    (s.asOther w).wf = true := by
  obtain ⟨heng, hstore, hparked, _⟩ := State.inv_iff_parts.mp h
  rw [hw] at hstore
  exact OtherStore.wf_iff.mpr ⟨(Store.wf_windowed.mp hstore).2, heng, hparked⟩

theorem State.inv_built (s : State) {st : Store} (h : st.wf = true) : (s.built st).inv = true :=
  State.inv_iff_parts.mpr ⟨Engine.wf_reset, h, rfl, rfl⟩

theorem State.inv_switchTo (s : State) {str : Stream} {o : OtherStore} {others : List OtherStore}
    (hs : str.bytes.fits str.length = true) (ho : o.wf = true) (hothers : others.all OtherStore.wf = true) :
    (s.switchTo str o others).inv = true := by
  obtain ⟨hwindow, heng, hparked⟩ := OtherStore.wf_iff.mp ho
  exact State.inv_iff_parts.mpr ⟨heng, Store.wf_windowed.mpr ⟨hs, hwindow⟩, hparked, hothers⟩

/-! ### Every host action -/

/-- Every host action that runs keeps the invariant (60_exceptions.md R215, R216). -/
theorem hostServe_keeps_inv {a : HostAction} {s t : State} (h : s.inv = true) (ht : hostServe a s = .next t) :
    t.inv = true := by
  obtain ⟨heng, hstore, hparked, hothers⟩ := State.inv_iff_parts.mp h
  -- The actions that replace nothing but the store and the answer.
  have keep : ∀ (st : Store) (ans : HostAnswer), st.wf = true → ({ s with store := st, answer := ans } : State).inv = true :=
    fun st _ hst => State.inv_iff_parts.mpr ⟨heng, hst, hparked, hothers⟩
  cases a <;> simp only [hostServe] at ht
  case write n v => cases ht; exact State.inv_iff_parts.mpr ⟨Engine.wf_writeRegister heng n v, hstore, hparked, hothers⟩
  case read => cases ht; exact h
  case storeAt o => cases ht; exact keep _ _ (Store.wf_at hstore o)
  case storeSlice o len => cases ht; exact keep _ _ (Store.wf_sliceBytes hstore _ _)
  case storePut bytes o => cases ht; exact keep _ _ (Store.wf_putChecked hstore _ _)
  case storeLength => cases ht; exact keep _ _ (Store.wf_reportLength hstore)
  case storeReset =>
    split at ht
    case h_1 => cases ht
    case h_2 w hw => cases ht; exact keep _ _ (Store.wf_invalidate (hw ▸ hstore))
  case streamWrite p bytes =>
    split at ht
    case h_1 => cases ht
    case h_2 w hw =>
      cases ht
      rw [hw] at hstore
      exact keep _ _ (Store.wf_withStream hstore (Stream.fits_passed (Store.wf_windowed.mp hstore).1 p bytes))
  case streamTruncate n =>
    split at ht
    case h_1 => cases ht
    case h_2 w hw =>
      cases ht
      rw [hw] at hstore
      exact keep _ _ (Store.wf_withStream hstore (Memory.fits_truncate (Store.wf_windowed.mp hstore).1 n))
  case buildSlice bytes =>
    split_ifs at ht with hlen
    cases ht
    exact State.inv_built _ (Store.wf_slice.mpr (Memory.fits_ofBytes (Nat.le_of_not_lt hlen)))
  case buildWindowed windowSize gapFill oracle bytes =>
    split_ifs at ht with hzero hlen
    cases ht
    exact State.inv_built _ (Store.wf_windowed.mpr
      ⟨Memory.fits_ofBytes (Nat.le_of_not_lt hlen), Nat.one_le_iff_ne_zero.mpr hzero, Nat.zero_le _, Nat.zero_le _⟩)
  case buildEngine =>
    cases ht
    exact State.inv_iff_parts.mpr
      ⟨Engine.wf_reset, Store.wf_windowReset hstore, by rw [List.all_cons, heng, hparked]; rfl, hothers⟩
  case selectEngine k =>
    split at ht
    case h_1 => cases ht
    case h_2 e he =>
      cases ht
      exact State.inv_iff_parts.mpr
        ⟨List.all_eq_true.mp hparked e (List.mem_of_getElem? he), hstore, all_set_of_all hparked k heng, hothers⟩
  case dropEngine k =>
    split_ifs at ht
    cases ht
    exact State.inv_iff_parts.mpr ⟨heng, hstore, all_eraseIdx_of_all hparked k, hothers⟩
  case buildStore windowSize =>
    split at ht
    case h_1 => cases ht
    case h_2 w hw =>
      split_ifs at ht with hzero
      cases ht
      have haside := OtherStore.wf_asOther h hw
      rw [hw] at hstore
      exact State.inv_switchTo s (Store.wf_windowed.mp hstore).1 (OtherStore.wf_newOther hzero)
        (by rw [List.all_cons, haside, hothers]; rfl)
  case selectStore k =>
    split at ht
    case h_1 => cases ht
    case h_2 w hw =>
      split at ht
      case h_1 => cases ht
      case h_2 o ho =>
        cases ht
        have haside := OtherStore.wf_asOther h hw
        rw [hw] at hstore
        exact State.inv_switchTo s (Store.wf_windowed.mp hstore).1
          (List.all_eq_true.mp hothers o (List.mem_of_getElem? ho)) (all_set_of_all hothers k haside)
  case dropStore k =>
    split_ifs at ht
    cases ht
    exact State.inv_iff_parts.mpr ⟨heng, hstore, hparked, all_eraseIdx_of_all hothers k⟩
  case overlap => cases ht

end Sys2Proof.Machine
end

section
/-! Every command keeps the store well formed and the cursor in range, and so the invariant (10_state.md R22, R28 to R31, R37). -/

namespace Sys2Proof.Machine

/-- The store is well formed and the cursor is in range: the part of the invariant that a command's walks and writes must keep. -/
def State.InBounds (s : State) : Prop := s.store.wf = true ∧ s.eng.cur.byte ≤ Config.maxOffset

theorem State.inBounds_of_inv {s : State} (h : s.inv = true) : s.InBounds := by
  obtain ⟨⟨hcur, _⟩, hstore, _⟩ := State.inv_iff.mp h
  exact ⟨hstore, hcur⟩

theorem position_byte_le (w : Word) (t : Nat) : (position w.toInt t).byte ≤ Config.maxOffset := toNat_toInt_le_maxOffset w

/-- A command that ends with a fetch is in bounds if its continuation is, on every value the fetch answers. -/
theorem State.inBounds_finish {α : Type} {s : State} (h : s.InBounds) {r : Except ErrClass α × Store} {k : State → α → State}
    (hr : r.2.wf = true) (hk : ∀ v, r.1 = .ok v → (k (s.withStore r.2) v).InBounds) : (s.finish r k).InBounds := by
  rcases s.finish_cases r k with ⟨e, _, he⟩ | ⟨v, hv, he⟩ <;> rw [he]
  · exact ⟨hr, h.2⟩
  · exact hk v hv

theorem State.inBounds_consume {s : State} (h : s.InBounds) (m : Nat) : (consume m s).InBounds := by
  obtain ⟨hwf, hend⟩ := walk_wf (n := m) h.1 h.2
  rcases consume_cases m s with ⟨_, _, he⟩ | ⟨bs, hbs, he⟩ <;> rw [he]
  · exact ⟨hwf, h.2⟩
  · exact ⟨hwf, (hend bs hbs).2.2⟩

theorem State.inBounds_readUint {s : State} (h : s.InBounds) (k : Nat) (bo : ByteOrder) : (readUint k bo s).InBounds := by
  obtain ⟨hwf, hend⟩ := fetchField_wf (n := 8 * k) h.1 h.2
  exact State.inBounds_finish h hwf fun v hv => ⟨hwf, (hend v hv).2⟩

theorem State.inBounds_writeField {s : State} (h : s.InBounds) (v n : Nat) : (s.writeField v n).InBounds :=
  State.writeField_wf h.1 h.2 v n

/-- Every command, on every store and cursor within bounds, leaves a store and a cursor within bounds. -/
theorem exec_inBounds (i : Instr) {s : State} (h : s.InBounds) : ∃ t, exec i s = .next t ∧ t.InBounds := by
  obtain ⟨hstore, hcur⟩ := h
  have field := fun n => fetchField_wf (n := n) hstore hcur
  have code := fetchCode_wf hstore hcur
  cases i
  case remainingBits =>
    have hw := (walk_wf (n := opCount s) hstore hcur).1
    simp only [exec, execRemainingBits]
    rcases he : walk (opCount s) s.eng.cur s.store with ⟨_ | _, st⟩ <;> rw [he] at hw <;> exact ⟨_, rfl, hw, hcur⟩
  case peekBits =>
    simp only [exec, execPeekBits]
    split_ifs
    · exact ⟨_, rfl, hstore, hcur⟩
    · exact ⟨_, rfl, hstore, hcur⟩
    · exact ⟨_, rfl, State.inBounds_finish ⟨hstore, hcur⟩ (field _).1 fun _ _ => ⟨(field _).1, hcur⟩⟩
  case readBits =>
    simp only [exec, execReadBits]
    split_ifs
    · exact ⟨_, rfl, hstore, hcur⟩
    · exact ⟨_, rfl, hstore, hcur⟩
    · exact ⟨_, rfl, State.inBounds_finish ⟨hstore, hcur⟩ (field _).1 fun v hv => ⟨(field _).1, ((field _).2 v hv).2⟩⟩
  case consumeBits => exact ⟨_, rfl, State.inBounds_consume ⟨hstore, hcur⟩ _⟩
  case consumeBytes => exact ⟨_, rfl, State.inBounds_consume ⟨hstore, hcur⟩ _⟩
  case readU8 => exact ⟨_, rfl, State.inBounds_readUint ⟨hstore, hcur⟩ 1 _⟩
  case readU16 => exact ⟨_, rfl, State.inBounds_readUint ⟨hstore, hcur⟩ 2 _⟩
  case readU32 => exact ⟨_, rfl, State.inBounds_readUint ⟨hstore, hcur⟩ 4 _⟩
  case readU64 => exact ⟨_, rfl, State.inBounds_readUint ⟨hstore, hcur⟩ 8 _⟩
  case seek =>
    have hl := Store.wf_lookup hstore (toNat_toInt_le_maxOffset s.eng.opa)
    simp only [exec, execSeek]
    split_ifs
    · exact ⟨_, rfl, hstore, hcur⟩
    · exact ⟨_, rfl, hstore, hcur⟩
    · rcases he : s.store.lookup (opByteOffset s).toNat with ⟨(_ | _) | _, st⟩ <;> rw [he] at hl
      · exact ⟨_, rfl, hl, hcur⟩
      · exact ⟨_, rfl, hl, hcur⟩
      · exact ⟨_, rfl, hl, position_byte_le _ _⟩
  case savePos => exact ⟨_, rfl, hstore, hcur⟩
  case restorePos =>
    simp only [exec, execRestorePos]
    split_ifs
    · exact ⟨_, rfl, hstore, hcur⟩
    · exact ⟨_, rfl, hstore, position_byte_le _ _⟩
  case resetPos => exact ⟨_, rfl, hstore, Nat.zero_le _⟩
  case readUe => exact ⟨_, rfl, State.inBounds_finish ⟨hstore, hcur⟩ code.1 fun v hv => ⟨code.1, (code.2 v hv).2⟩⟩
  case readSe => exact ⟨_, rfl, State.inBounds_finish ⟨hstore, hcur⟩ code.1 fun v hv => ⟨code.1, (code.2 v hv).2⟩⟩
  case writeBits =>
    simp only [exec, execWriteBits]
    split_ifs
    · exact ⟨_, rfl, hstore, hcur⟩
    · exact ⟨_, rfl, hstore, hcur⟩
    · exact ⟨_, rfl, State.inBounds_writeField ⟨hstore, hcur⟩ _ _⟩
  case writeUe =>
    simp only [exec, execWriteUe]
    split_ifs
    · exact ⟨_, rfl, hstore, hcur⟩
    · exact ⟨_, rfl, State.inBounds_writeField ⟨hstore, hcur⟩ _ _⟩
  case writeSe =>
    simp only [exec, execWriteSe]
    split_ifs
    · exact ⟨_, rfl, hstore, hcur⟩
    · exact ⟨_, rfl, State.inBounds_writeField ⟨hstore, hcur⟩ _ _⟩
  case illegal => exact ⟨_, rfl, hstore, hcur⟩
  case writeU8 => exact ⟨_, rfl, State.inBounds_writeField ⟨hstore, hcur⟩ _ _⟩
  case writeU16 => exact ⟨_, rfl, State.inBounds_writeField ⟨hstore, hcur⟩ _ _⟩
  case writeU32 => exact ⟨_, rfl, State.inBounds_writeField ⟨hstore, hcur⟩ _ _⟩
  case writeU64 => exact ⟨_, rfl, State.inBounds_writeField ⟨hstore, hcur⟩ _ _⟩

/-- The response a command ends with, of a state it is known to reach. -/
theorem responds_of_exec {i : Instr} {s t : State} (ht : exec i s = .next t) : State.Responds i s t := by
  obtain ⟨t', ht', hr⟩ := exec_responds i s
  cases ht.symm.trans ht'
  exact hr

/-- A failure or a success is a legal response by its form, SAVE_POS's RES1 being a bit offset; the store and the cursor stay
within bounds; and no command touches the other engines and stores. -/
theorem exec_keeps_inv {i : Instr} {s t : State} (h : s.inv = true) (ht : exec i s = .next t) : t.inv = true := by
  obtain ⟨t', ht', hstore, hcur⟩ := exec_inBounds i (State.inBounds_of_inv h)
  cases ht.symm.trans ht'
  rcases responds_of_exec ht with ⟨st, e, rfl⟩ | ⟨st, c, r0, r1, rfl, hr1⟩
  · exact State.inv_failed h hstore e
  · refine State.inv_succeeded h hstore hcur r0 ?_
    rcases hr1 with rfl | ⟨_, rfl⟩
    · exact Nat.zero_le _
    · have := s.eng.cur.bit.isLt
      rw [BitVec.toNat_ofNat]
      omega

/-! ### The obligations -/

/-- Settles O13: an idle step changes nothing, a write to CMD runs a command from a state that meets the invariant, and any
other host action keeps it part by part. -/
theorem stepKeepsInvariant : Obligations.StepKeepsInvariant := by
  intro s t h ht
  cases hhost : s.host with
  | nil =>
    rw [step_of_idle hhost] at ht
    cases ht
    exact h
  | cons a rest =>
    cases hcmd : commandOf a with
    | some w =>
      rw [step_of_command hhost hcmd] at ht
      exact exec_keeps_inv (s := s.taken.latchCmd w) h ht
    | none =>
      rw [step_of_serve hhost hcmd] at ht
      exact hostServe_keeps_inv (s := s.taken) h ht

/-- Settles O14: every command ends with one of the two responses of `State.Responds`. -/
theorem everyCommandResponds : Obligations.EveryCommandResponds := by
  intro i s
  obtain ⟨t, ht, hr⟩ := exec_responds i s
  refine ⟨t, ht, ?_⟩
  rcases hr with ⟨st, e, rfl⟩ | ⟨st, c, r0, r1, rfl, hr1⟩
  · refine ⟨.inr ⟨?_, rfl, rfl, rfl⟩, fun _ => rfl⟩
    cases e
    · exact .inl rfl
    · exact .inr (.inl rfl)
    · exact .inr (.inr rfl)
  · refine ⟨.inl rfl, fun hi => ?_⟩
    rcases hr1 with rfl | ⟨rfl, _⟩
    · rfl
    · exact absurd rfl hi

/-- Settles O15: a failure and a success are whole next states, and neither names an operand, another engine or store, or a
field of the host. -/
theorem commandsKeepOperands : Obligations.CommandsKeepOperands := by
  intro i s t ht
  rcases responds_of_exec ht with ⟨st, e, rfl⟩ | ⟨st, c, r0, r1, rfl, _⟩
  · exact ⟨rfl, rfl, rfl, rfl, rfl, rfl, rfl⟩
  · exact ⟨rfl, rfl, rfl, rfl, rfl, rfl, rfl⟩

/-- Settles O5: CMD takes the word whole from the bus, and a read of it is register 0. -/
theorem stepRunsDecodedCommand : Obligations.StepRunsDecodedCommand := by
  refine ⟨fun s w rest h => ?_, fun s rest h => ?_⟩
  · rw [step_of_command h (commandOf_write_cmd w), State.taken_eq h]
    rfl
  · rw [step_of_serve h rfl, State.taken_eq h]
    rfl

/-- Settles O7: what a read returns and a write stores, register by register. -/
theorem registerAccess : Obligations.RegisterAccess := by
  refine ⟨fun s n rest h => ?_, fun s n v rest hn h => ?_⟩
  · rw [step_of_serve h rfl, State.taken_eq h, hostServe, readRegister_eq]
  · rw [step_of_serve h (commandOf_write_of_ne hn v), State.taken_eq h, hostServe, writeRegister_eq]

/-- Settles O12: the engine and the empty store of reset are well formed and nothing is put aside. -/
theorem resetMeetsInvariant : Obligations.ResetMeetsInvariant :=
  State.inv_iff_parts.mpr ⟨Engine.wf_reset, Store.wf_slice.mpr (by decide), rfl, rfl⟩

end Sys2Proof.Machine
end

section
/-! The two stores as the host and the engine use them: `At`, `Slice`, `Put` and `Length` of a SLICE store, and the window of a
WINDOWED store under a lookup, a write of its own, a failed write, `Reset()` and another path's write (20_memory.md R52 to R74). -/

namespace Sys2Proof.Machine

/-! ### `At` and `Put` as the host sees them, on either store -/

theorem Store.at_of_neg {st : Store} {o : Int} (ho : o < 0) : st.at o = (none, st) := if_pos ho

theorem Store.at_of_nonneg {st : Store} {o : Int} (ho : 0 ≤ o) :
    st.at o = ((st.lookup o.toNat).1.toOption, (st.lookup o.toNat).2) := by
  rw [Store.at, if_neg (Int.not_lt.mpr ho)]
  rcases st.lookup o.toNat with ⟨_ | _, _⟩ <;> rfl

theorem Store.putChecked_of_neg {st : Store} (bytes : Option (List Byte)) {o : Int} (ho : o < 0) :
    st.putChecked bytes o = (false, st) := if_pos ho

theorem Store.putChecked_none (st : Store) (o : Int) : st.putChecked none o = (false, st) := ite_self _

/-- Past the checks of offset and presence, the host learns whether the bytes were stored (20_memory.md R54; log entry 19). -/
theorem Store.putChecked_some {st : Store} (bytes : List Byte) {o : Int} (ho : 0 ≤ o) :
    st.putChecked (some bytes) o = (decide ((st.put bytes o.toNat).1 = .stored), (st.put bytes o.toNat).2) := by
  rw [Store.putChecked, if_neg (Int.not_lt.mpr ho)]
  rcases st.put bytes o.toNat with ⟨_ | _ | _, _⟩ <;> rfl

/-! ### A SLICE store -/

theorem SliceStore.put_pastEnd {st : SliceStore} {bytes : List Byte} (hb : bytes ≠ []) {o : Nat}
    (h : st.capacity < o + bytes.length) : st.put bytes o = (.rejected, st) := by
  rw [SliceStore.put, if_neg (mt List.eq_nil_of_length_eq_zero hb), if_pos h]

theorem SliceStore.put_inside {st : SliceStore} {bytes : List Byte} (hb : bytes ≠ []) {o : Nat}
    (h : o + bytes.length ≤ st.capacity) : st.put bytes o = (.stored, { st with buf := st.buf.writeBytes o bytes }) := by
  rw [SliceStore.put, if_neg (mt List.eq_nil_of_length_eq_zero hb), if_neg (Nat.not_lt.mpr h)]

/-- Settles O53: the host's `At` and `Put` are the checks of offset and presence before the store's own three cases. -/
theorem sliceAtAndPut : Obligations.SliceAtAndPut := by
  intro st o bytes hwf
  refine ⟨?_, Store.putChecked_none _ _, fun ho => Store.putChecked_of_neg _ ho, ?_, ?_, ?_⟩
  · rcases Int.lt_or_le o 0 with ho | ho
    · rw [Store.at_of_neg ho, if_neg (by omega)]
    · rw [Store.at_of_nonneg ho, Store.lookup, SliceStore.lookup]
      by_cases hin : o < (st.capacity : Int)
      · rw [if_pos (show o.toNat < st.capacity by omega), if_pos ⟨ho, hin⟩]
        rfl
      · rw [if_neg (show ¬ o.toNat < st.capacity by omega), if_neg (fun h => hin h.2)]
        rfl
  · rintro ho rfl
    rw [Store.putChecked_some _ ho]
    rfl
  · intro ho hb hlen
    rw [Store.putChecked_some _ ho, Store.put, SliceStore.put_pastEnd hb (by omega)]
    rfl
  · intro ho hb hlen
    refine ⟨st.buf.writeBytes o.toNat bytes, ?_, Memory.read_writeBytes (Store.content_wf hwf) _ _⟩
    rw [Store.putChecked_some _ ho, Store.put, SliceStore.put_inside hb (by omega)]
    rfl

/-- `Slice` of a SLICE store reads as many bytes as are asked for and left (20_memory.md R58). -/
theorem Store.sliceBytes_slice (st : SliceStore) (o len : Int) :
    (Store.slice st).sliceBytes o len =
      (if len ≤ 0 ∨ o < 0 then [] else st.buf.readBytes o.toNat (min len.toNat (st.capacity - o.toNat)), .slice st) := by
  rw [Store.sliceBytes]
  split_ifs <;> rfl

/-- Settles O54: the bytes that `Slice` reads are cut at the capacity, so none are left from the capacity on. -/
theorem sliceSliceAndLength : Obligations.SliceSliceAndLength := by
  intro st o len
  rw [Store.sliceBytes_slice]
  refine ⟨rfl, rfl, fun h => ?_, fun hlen ho hin => ?_⟩
  · split_ifs
    · rfl
    · rw [show min len.toNat (st.capacity - o.toNat) = 0 by omega]
      rfl
  · rw [if_neg (by omega)]
    refine ⟨?_, fun i hi => ?_⟩
    · rw [Memory.length_readBytes]
      omega
    · rw [Memory.length_readBytes] at hi
      rw [Memory.getElem?_readBytes, if_pos hi]

/-! ### The lookup of a WINDOWED store -/

theorem WindowedStore.hit_of_le {w : WindowedStore} {o : Nat} (h : w.bufferIndex ≤ o) :
    w.hit o = w.window[o - w.bufferIndex]? := if_pos h

/-- An offset outside the window misses (20_memory.md R62). -/
theorem WindowedStore.hit_eq_none {w : WindowedStore} {o : Nat}
    (h : ¬ (w.bufferIndex ≤ o ∧ o < w.bufferIndex + w.window.length)) : w.hit o = none := by
  cases hh : w.hit o with
  | none => rfl
  | some b => exact absurd (WindowedStore.hit_lt hh) h

/-- A hit answers from the window and leaves the store as it is (20_memory.md R63). -/
theorem WindowedStore.lookup_of_hit {w : WindowedStore} {o : Nat} {b : Byte} (h : w.hit o = some b) :
    w.lookup o = (.ok b, w) := by
  rw [WindowedStore.lookup, h]

/-- The store whose window was read anew around an offset (20_memory.md R64). -/
def WindowedStore.recentered (w : WindowedStore) (o : Nat) : WindowedStore :=
  { w with
    stream := w.stream.draw.2
    bufferIndex := o - w.windowSize / 2
    window := w.stream.slice (o - w.windowSize / 2) w.windowSize }

/-- A draw of the oracle leaves what the stream's slices read. -/
theorem Stream.slice_draw (st : Stream) (a m : Nat) : st.draw.2.slice a m = st.slice a m := by
  obtain ⟨hlen, hbytes, _⟩ := st.draw_same
  rw [Stream.slice, Stream.slice, hlen, hbytes]

theorem Stream.getElem?_slice (st : Stream) (a m i : Nat) :
    (st.slice a m)[i]? = if i < min m (st.length - a) then some (st.bytes.read (a + i)) else none :=
  Memory.getElem?_readBytes _ _ _ _

/-- A miss whose stream read fails empties the window (20_memory.md R64). -/
theorem WindowedStore.lookup_of_failedRead {w : WindowedStore} {o : Nat} {d : Config.Draw} (hm : w.hit o = none)
    (hd : w.stream.draw.1 = some d) : w.lookup o = (.error .io, { w with stream := w.stream.draw.2, window := [] }) := by
  rcases w.lookup_cases o with ⟨b, hh, _⟩ | ⟨_, _, _, he⟩ | ⟨_, hn, _⟩
  · exact absurd (hm.symm.trans hh) nofun
  · exact he
  · exact absurd (hd.symm.trans hn) nofun

/-- The window read anew around an offset of the stream holds it; past the end it holds nothing there (20_memory.md R64, R65). -/
theorem WindowedStore.hit_recentered {w : WindowedStore} (hw : w.windowSize ≠ 0) (o : Nat) :
    (w.recentered o).hit o = if o < w.stream.length then some (w.stream.bytes.read o) else none := by
  have hidx : o - w.windowSize / 2 + (o - (o - w.windowSize / 2)) = o := by omega
  rw [WindowedStore.hit_of_le (Nat.sub_le _ _)]
  simp only [WindowedStore.recentered]
  rw [Stream.getElem?_slice, hidx]
  by_cases hin : o < w.stream.length
  · rw [if_pos hin, if_pos (by omega)]
  · rw [if_neg hin, if_neg (by omega)]

/-- Past the stream's end the window read anew holds nothing, for every window size (20_memory.md R65). -/
theorem WindowedStore.hit_recentered_pastEnd {w : WindowedStore} {o : Nat} (h : w.stream.length ≤ o) :
    (w.recentered o).hit o = none := by
  refine WindowedStore.hit_eq_none fun hin => ?_
  simp only [WindowedStore.recentered, Stream.length_slice] at hin
  omega

/-- A miss whose stream read passes answers from the window read anew, or `OOB` (20_memory.md R63, R64). -/
theorem WindowedStore.lookup_of_read {w : WindowedStore} {o : Nat} (hm : w.hit o = none) (hd : w.stream.draw.1 = none) :
    (w.lookup o).2 = w.recentered o ∧
      (∀ b, (w.recentered o).hit o = some b → (w.lookup o).1 = .ok b) ∧
      ((w.recentered o).hit o = none → (w.lookup o).1 = .error .oob) := by
  rcases w.lookup_cases o with ⟨b, hh, _⟩ | ⟨d, _, hs, _⟩ | ⟨_, _, w', hw', he⟩
  · exact absurd (hm.symm.trans hh) nofun
  · exact absurd (hd.symm.trans hs) nofun
  · rw [Stream.slice_draw] at hw'
    obtain rfl : w' = w.recentered o := hw'
    rw [he]
    exact ⟨rfl, fun b hb => by rw [hb], fun hn => by rw [hn]⟩

/-- Settles O55: the three ends of a lookup, hit, failed read and read, and where the new window lies. -/
theorem windowedAt : Obligations.WindowedAt := by
  intro w o
  refine ⟨fun i hi => Store.at_of_neg hi, ?_, fun b hlo hb => ?_, fun d hout hd => ?_, fun hout hd => ?_⟩
  · rw [Store.at_of_nonneg (Int.natCast_nonneg o), Int.toNat_natCast, Store.lookup]
    rcases w.lookup o with ⟨_ | _, _⟩ <;> rfl
  · exact WindowedStore.lookup_of_hit ((WindowedStore.hit_of_le hlo).trans hb)
  · exact WindowedStore.lookup_of_failedRead (WindowedStore.hit_eq_none hout) hd
  · obtain ⟨hstore, hok, hoob⟩ := WindowedStore.lookup_of_read (WindowedStore.hit_eq_none hout) hd
    refine ⟨(w.lookup o).1, w.recentered o, Prod.ext rfl hstore, rfl, rfl, rfl, rfl, fun hin hw => ?_, fun hend => ?_⟩
    · exact hok _ ((WindowedStore.hit_recentered hw o).trans (if_pos hin))
    · exact hoob (WindowedStore.hit_recentered_pastEnd hend)

/-- Settles O56: `Store.lookup_quiet` on an offset of the store, and on one at or past its end. -/
theorem quietStoresArePlainMemory : Obligations.QuietStoresArePlainMemory := by
  intro st o hq ho
  obtain ⟨hr, hq'⟩ := Store.lookup_quiet hq ho
  rw [Store.byteAt] at hr
  refine ⟨(st.lookup o).2, hq', st.sameContent_lookup o, fun hin => ?_, fun hend => ?_⟩
  · rw [if_pos hin] at hr
    exact Prod.ext hr rfl
  · rw [if_neg (Nat.not_lt.mpr hend)] at hr
    exact Prod.ext hr rfl

/-! ### `Put` of a WINDOWED store -/

/-- `Put` of no bytes does nothing; else the stream write fails and the window is empty, or it stores every byte and the window
is patched (20_memory.md R67 to R69). -/
theorem WindowedStore.put_cases (w : WindowedStore) (bytes : List Byte) (o : Nat) :
    (bytes = [] ∧ w.put bytes o = (.stored, w)) ∨
    (∃ (d : Config.Draw) (str : Stream), str.length = w.stream.length ∧ str.bytes = w.stream.bytes ∧
      w.put bytes o = (.ioFailed, { w with stream := str.failed o bytes d, window := [] })) ∨
    (o + bytes.length ≤ Config.maxOffset ∧ w.put bytes o =
      (.stored, { w with stream := w.stream.draw.2.stored o bytes, window := patchWindow o bytes w.bufferIndex w.window })) := by
  by_cases hb : bytes = []
  · subst hb
    exact .inl ⟨rfl, rfl⟩
  · right
    rw [WindowedStore.put, if_neg (mt List.eq_nil_of_length_eq_zero hb)]
    rcases w.stream.write_cases o bytes with ⟨d, str, _, hlen, hbytes, he⟩ | ⟨_, hmax, he⟩ <;> rw [he]
    · exact .inl ⟨d, str, hlen, hbytes, rfl⟩
    · exact .inr ⟨hmax, rfl⟩

/-- A patched window shows the written bytes where they overlap it, and its own bytes elsewhere (20_memory.md R68). -/
theorem WindowedStore.hit_patched (w : WindowedStore) (str : Stream) (bytes : List Byte) (o a : Nat) :
    WindowedStore.hit { w with stream := str, window := patchWindow o bytes w.bufferIndex w.window } a =
      (w.hit a).map fun b => if o ≤ a then (bytes[a - o]?).getD b else b := by
  rw [WindowedStore.hit, WindowedStore.hit]
  by_cases hlo : w.bufferIndex ≤ a
  · rw [if_pos hlo, if_pos hlo, getElem?_patchWindow, Nat.add_sub_of_le hlo]
  · rw [if_neg hlo, if_neg hlo]
    rfl

/-- Settles O57: a `Put` that stored left the window as it was, for no bytes, or patched. -/
theorem patchedWindowShowsTheWrite : Obligations.PatchedWindowShowsTheWrite := by
  intro w w' bytes o hput
  rcases w.put_cases bytes o with ⟨rfl, he⟩ | ⟨d, str, _, _, he⟩ | ⟨_, he⟩ <;> cases he.symm.trans hput
  · exact ⟨rfl, rfl, fun a b hb => by simpa using hb⟩
  · exact ⟨rfl, length_patchWindow _ _ _ _, fun a b hb => by rw [WindowedStore.hit_patched, hb, Option.map_some]⟩

/-! ### A stream write that fails (20_memory.md R69) -/

/-- A failed write never shortens the stream, and grows it to the end of its range at most. -/
theorem Stream.length_failed (st : Stream) (a : Nat) (bytes : List Byte) (d : Config.Draw) :
    st.length ≤ (st.failed a bytes d).length ∧ (st.failed a bytes d).length ≤ max st.length (a + bytes.length) := by
  simp only [Stream.failed, Stream.grow]
  omega

/-- A failed write leaves a byte of the stream as it was, or stores the new byte of its range. -/
theorem Stream.read_failed {st : Stream} (h : st.bytes.wf = true) (a : Nat) (bytes : List Byte) (d : Config.Draw) {x : Nat}
    (hx : x < st.length) :
    (st.failed a bytes d).bytes.read x = st.bytes.read x ∨
      (a ≤ x ∧ bytes[x - a]? = some ((st.failed a bytes d).bytes.read x)) := by
  have hgrown := fun n => Memory.wf_writeBytes h st.length
    (d.created.take (n - st.length) ++ List.replicate (n - st.length - d.created.length) st.gapFill)
  rcases Memory.read_writeSome (hgrown _) a bytes d.stored x with hold | ⟨ha, _, hnew⟩
  · exact .inl (hold.trans (Stream.read_grow h _ _ hx))
  · exact .inr ⟨ha, hnew⟩

/-- Bytes whose range passes MAX_OFFSET are never stored (00_scope.md R10; log entry 7). -/
theorem WindowedStore.put_pastMaxOffset {w : WindowedStore} {bytes : List Byte} {o : Nat} (hb : bytes ≠ [])
    (h : Config.maxOffset < o + bytes.length) : ∃ w', w.put bytes o = (.ioFailed, w') := by
  rcases w.put_cases bytes o with ⟨hnil, _⟩ | ⟨d, str, _, _, he⟩ | ⟨hle, _⟩
  · exact absurd hnil hb
  · exact ⟨_, he⟩
  · exact absurd h (Nat.not_lt.mpr hle)

/-- Settles O58: a `Put` that failed left the stream of a failed write and an empty window. -/
theorem failedPutLeavesOldOrNewBytes : Obligations.FailedPutLeavesOldOrNewBytes := by
  refine fun w bytes o => ⟨fun w' hwf hput => ?_, WindowedStore.put_pastMaxOffset⟩
  have hchecked : (Store.windowed w).putChecked (some bytes) o = (false, .windowed w') := by
    rw [Store.putChecked_some _ (Int.natCast_nonneg o), Int.toNat_natCast, Store.put, hput]
    rfl
  have hmax : w'.stream.length ≤ Config.maxOffset := by
    have := Store.length_le (Store.wf_put hwf bytes o)
    rwa [Store.put, hput] at this
  have hmem := Store.content_wf hwf
  rcases w.put_cases bytes o with ⟨_, he⟩ | ⟨d, str, hlen, hbytes, he⟩ | ⟨_, he⟩ <;> cases he.symm.trans hput
  obtain ⟨hgrow, hend⟩ := str.length_failed o bytes d
  refine ⟨hchecked, rfl, hlen ▸ hgrow, hlen ▸ hend, hmax, fun x hx => ?_⟩
  rw [← hbytes]
  exact Stream.read_failed (hbytes ▸ hmem) o bytes d (hlen ▸ hx)

/-! ### `Reset()` and another path's write (20_memory.md R72, R74) -/

/-- Settles O59: a window without bytes holds no offset. -/
theorem hostResetEmptiesTheWindow : Obligations.HostResetEmptiesTheWindow := by
  intro s w rest hstore hhost
  refine ⟨?_, fun o => ite_self _⟩
  rw [step_of_serve hhost rfl, State.taken_eq hhost, hostServe, hstore]
  rfl

/-- A write that passes stores byte `i` at offset `a + i` (20_memory.md R70). -/
theorem Stream.read_stored {st : Stream} (h : st.bytes.wf = true) (a : Nat) (bytes : List Byte) {i : Nat}
    (hi : i < bytes.length) : (st.stored a bytes).bytes.read (a + i) = bytes[i] := by
  have hgrown : (st.grow a []).bytes.wf = true := Memory.wf_writeBytes h _ _
  rw [Stream.stored, Memory.read_writeBytes hgrown, if_pos (Nat.le_add_right a i), Nat.add_sub_cancel_left,
    List.getElem?_eq_getElem hi]
  rfl

/-- Settles O60: another path's write replaces the stream under the window, so what hit before still hits. -/
theorem staleWindowAnswers : Obligations.StaleWindowAnswers := by
  intro s w p bytes rest hstore hhost
  refine ⟨{ s with host := rest, answer := .nothing, store := .windowed { w with stream := (w.stream.passed p bytes).2 } },
    { w with stream := (w.stream.passed p bytes).2 }, ?_, rfl, rfl, rfl, fun o b hb => ?_, fun hwf hmax i hi => ?_⟩
  · rw [step_of_serve hhost rfl, State.taken_eq hhost, hostServe, hstore]
  · rw [Store.lookup, WindowedStore.lookup_of_hit (w := { w with stream := (w.stream.passed p bytes).2 }) hb]
  · rw [Stream.passed, if_pos hmax, List.getD_eq_getElem _ _ hi]
    exact Stream.read_stored (Store.content_wf hwf) p bytes hi

end Sys2Proof.Machine
end

section
/-! What writes nothing keeps the store's content: every command that is no write, and a write with rejected operands
(20_memory.md R81; 41_bit_extract.md R139; 43_cursor_control.md R164; 44_golomb_decode.md R174). -/

namespace Sys2Proof.Machine

/-- A command that ends with a fetch keeps the content if the fetch does and the continuation leaves the store to it. -/
theorem State.sameContent_finish {α : Type} {s : State} {r : Except ErrClass α × Store} {k : State → α → State}
    (hr : s.store.sameContent r.2) (hk : ∀ v, (k (s.withStore r.2) v).store = r.2) :
    s.store.sameContent (s.finish r k).store := by
  rcases s.finish_cases r k with ⟨_, _, he⟩ | ⟨v, _, he⟩ <;> rw [he]
  · exact hr
  · rw [hk]
    exact hr

theorem sameContent_consume (m : Nat) (s : State) : s.store.sameContent (consume m s).store := by
  have hw := sameContent_walk m s.eng.cur s.store
  rcases consume_cases m s with ⟨_, _, he⟩ | ⟨_, _, he⟩ <;> rw [he] <;> exact hw

theorem sameContent_readUint (k : Nat) (bo : ByteOrder) (s : State) : s.store.sameContent (readUint k bo s).store :=
  State.sameContent_finish (sameContent_fetchField _ _ _) fun _ => rfl

/-- Every command that stores nothing only looks bytes up: its walks, fields and codes keep the content, and the response does
not touch the store. -/
theorem exec_sameContent {i : Instr} {s : State} (h : writtenWidth i s = none) :
    ∃ t, exec i s = .next t ∧ s.store.sameContent t.store := by
  have same := s.store.sameContent_refl
  cases i
  case remainingBits =>
    have hw := sameContent_walk (opCount s) s.eng.cur s.store
    simp only [exec, execRemainingBits]
    rcases he : walk (opCount s) s.eng.cur s.store with ⟨_ | _, st⟩ <;> rw [he] at hw <;> exact ⟨_, rfl, hw⟩
  case peekBits =>
    simp only [exec, execPeekBits]
    split_ifs
    · exact ⟨_, rfl, same⟩
    · exact ⟨_, rfl, same⟩
    · exact ⟨_, rfl, State.sameContent_finish (sameContent_fetchField _ _ _) fun _ => rfl⟩
  case readBits =>
    simp only [exec, execReadBits]
    split_ifs
    · exact ⟨_, rfl, same⟩
    · exact ⟨_, rfl, same⟩
    · exact ⟨_, rfl, State.sameContent_finish (sameContent_fetchField _ _ _) fun _ => rfl⟩
  case consumeBits => exact ⟨_, rfl, sameContent_consume _ s⟩
  case consumeBytes => exact ⟨_, rfl, sameContent_consume _ s⟩
  case readU8 bo => exact ⟨_, rfl, sameContent_readUint 1 bo s⟩
  case readU16 bo => exact ⟨_, rfl, sameContent_readUint 2 bo s⟩
  case readU32 bo => exact ⟨_, rfl, sameContent_readUint 4 bo s⟩
  case readU64 bo => exact ⟨_, rfl, sameContent_readUint 8 bo s⟩
  case seek =>
    have hl := s.store.sameContent_lookup (opByteOffset s).toNat
    simp only [exec, execSeek]
    split_ifs
    · exact ⟨_, rfl, same⟩
    · exact ⟨_, rfl, same⟩
    · rcases he : s.store.lookup (opByteOffset s).toNat with ⟨(_ | _) | _, st⟩ <;> rw [he] at hl <;> exact ⟨_, rfl, hl⟩
  case savePos => exact ⟨_, rfl, same⟩
  case restorePos =>
    simp only [exec, execRestorePos]
    split_ifs <;> exact ⟨_, rfl, same⟩
  case resetPos => exact ⟨_, rfl, same⟩
  case readUe => exact ⟨_, rfl, State.sameContent_finish (sameContent_fetchCode _ _) fun _ => rfl⟩
  case readSe => exact ⟨_, rfl, State.sameContent_finish (sameContent_fetchCode _ _) fun _ => rfl⟩
  case illegal => exact ⟨_, rfl, same⟩
  -- A write stores nothing only when its operands are rejected, before any lookup.
  case writeBits =>
    simp only [writtenWidth] at h
    split_ifs at h with hn
    exact ⟨_, if_pos (Nat.lt_of_not_le hn), same⟩
  case writeUe =>
    simp only [writtenWidth] at h
    split_ifs at h with hv
    exact ⟨_, if_pos hv, same⟩
  case writeSe =>
    simp only [writtenWidth] at h
    split_ifs at h with hv
    exact ⟨_, if_pos hv, same⟩
  all_goals exact absurd h nofun

/-- Settles O16: a command has one next state, the one that `exec_sameContent` names. -/
theorem nonWritersKeepContent : Obligations.NonWritersKeepContent := by
  intro i s t h ht
  obtain ⟨t', ht', hsame⟩ := exec_sameContent h
  cases ht.symm.trans ht'
  exact hsame

end Sys2Proof.Machine
end

section
/-! Decoding against the map: a legal word is an entry of the opcode map, every other word is ILLEGAL, and the encoder is the
inverse on both sides (30_encoding.md R100 to R107). -/

namespace Sys2Proof

/-- RSV is what is left of a word above OP and BO (30_encoding.md R100). -/
theorem rsvField_eq (w : CmdWord) : rsvField w = w.toNat / 512 := by
  have hw := toNat_fields w
  have hop := opField_lt w
  split_ifs at hw <;> omega

/-- The map has an entry for an OP value in a byte order exactly when the OP value is in the map and, with BO = 1, has a byte
order (30_encoding.md R101, R103). -/
theorem isSome_opcodeMap {op : Nat} (hop : op < 256) (b : Bool) :
    (opcodeMap op (if b then .little else .big)).isSome = (legalOps.contains op && (!b || orderedOps.contains op)) := by
  have hsub : op ∈ orderedOps → op ∈ legalOps := fun h => (show orderedOps ⊆ legalOps by decide) h
  cases b with
  | false => simp [opcodeMap_big op hop]
  | true => simpa [opcodeMap_little op hop] using hsub

/-- A word is a legal command exactly when its RSV is 0 and the map has an entry for its OP and BO (30_encoding.md R106). -/
theorem legalWord_eq (w : CmdWord) :
    legalWord w = (rsvField w == 0 && (opcodeMap (opField w) (boField w)).isSome) := by
  rw [boField, isSome_opcodeMap (opField_lt w), rsvField_eq, opField_eq, legalWord, Bool.and_assoc]
  rfl

/-- A legal word decodes to the map's entry for its OP and BO (30_encoding.md R106). -/
theorem opcodeMap_of_legalWord {w : CmdWord} (h : legalWord w = true) :
    opcodeMap (opField w) (boField w) = some (decode w) := by
  rw [legalWord_eq, Bool.and_eq_true, beq_iff_eq] at h
  obtain ⟨hrsv, hentry⟩ := h
  obtain ⟨i, hi⟩ := Option.isSome_iff_exists.mp hentry
  simp [decode, hrsv, hi]

/-- A word that is no legal command decodes to ILLEGAL with the word itself (30_encoding.md R106, R107). -/
theorem decode_of_not_legalWord {w : CmdWord} (h : ¬ legalWord w = true) : decode w = .illegal w := by
  rw [legalWord_eq, Bool.and_eq_true, beq_iff_eq] at h
  by_cases hrsv : rsvField w = 0
  · have hnone : opcodeMap (opField w) (boField w) = none := by simpa [hrsv] using h
    simp [decode, hnone]
  · exact if_pos hrsv

/-- `legalWord` is the complement of the three tests for ILLEGAL (30_encoding.md R106). -/
theorem legalWord_iff (w : CmdWord) :
    legalWord w = true ↔ w >>> 9 = 0 ∧ w.toNat % 256 ∈ legalOps ∧ (w.getLsbD 8 = true → w.toNat % 256 ∈ orderedOps) := by
  have hrsv : w >>> 9 = 0 ↔ w.toNat / 2 ^ 9 = 0 := by
    rw [← BitVec.toNat_inj, BitVec.toNat_ushiftRight, Nat.shiftRight_eq_div_pow]
    rfl
  rw [hrsv, legalWord]
  cases w.getLsbD 8 <;> simp [and_assoc]

/-- Settles O2: a command's word names the command's own entry of the map; an ILLEGAL instruction holds a word that is no legal
command. -/
theorem decodeEncodeRoundTrip : Obligations.DecodeEncodeRoundTrip := by
  intro i hi
  cases i with
  | illegal w => exact decode_of_not_legalWord (w := w) (by simpa [Instr.wellFormed] using hi)
  | readU8 bo | readU16 bo | readU32 bo | readU64 bo | writeU8 bo | writeU16 bo | writeU32 bo | writeU64 bo =>
    cases bo <;> rfl
  | _ => rfl

/-- Settles O3: a legal word is rebuilt from its OP and BO, since its RSV is 0; any other word is kept whole in ILLEGAL. -/
theorem everyWordHasOneMeaning : Obligations.EveryWordHasOneMeaning := by
  intro w
  by_cases h : legalWord w = true
  · obtain ⟨hwf, hcode, _⟩ := opcodeMap_entry (opcodeMap_of_legalWord h)
    rw [legalWord_eq, Bool.and_eq_true, beq_iff_eq] at h
    obtain ⟨hrsv, _⟩ := h
    refine ⟨hwf, BitVec.eq_of_toNat_eq ?_⟩
    rw [hcode, toNat_fields w, hrsv, Nat.mul_zero, Nat.add_zero]
  · rw [decode_of_not_legalWord h]
    exact ⟨by simpa [Instr.wellFormed] using h, rfl⟩

/-- Settles O4: the three tests are `legalWord` failing, and a legal word is an entry of the map. -/
theorem decodeFollowsTheRule : Obligations.DecodeFollowsTheRule := by
  refine fun w => ⟨fun h => decode_of_not_legalWord fun hlegal => ?_, fun hrsv hop hbo => ?_⟩
  · obtain ⟨hrsv, hop, hbo⟩ := (legalWord_iff w).mp hlegal
    rcases h with h | h | ⟨hset, h⟩
    · exact h hrsv
    · exact h hop
    · exact h (hbo hset)
  · have hentry := opcodeMap_of_legalWord ((legalWord_iff w).mpr ⟨hrsv, hop, hbo⟩)
    obtain ⟨_, _, hne⟩ := opcodeMap_entry hentry
    exact ⟨opField_eq w ▸ hentry, hne w⟩

/-- Settles O1: each word of the map, evaluated. -/
theorem opcodeMapWordsDecode : Obligations.OpcodeMapWordsDecode := by
  unfold Obligations.OpcodeMapWordsDecode
  decide

/-- Settles O52: ILLEGAL is the failure with INVALID_ARGUMENT, whatever its word. -/
theorem illegalWordsFail : Obligations.IllegalWordsFail :=
  fun s _ => congrArg Host.Outcome.next (Machine.State.fail_eq_failed s .invalidArgument)

end Sys2Proof
end

section
/-! Bit extraction: every end of the five commands is an end of one walk, on any store, and a quiet store decides that walk by
the bits that remain (41_bit_extract.md R130 to R139). -/

namespace Sys2Proof.Machine

/-! ### The ends of a walk -/

@[simp] theorem walk_zero (c : Cursor) (st : Store) : walk 0 c st = (.ok [], st) := if_pos rfl

@[simp] theorem field_zero (bs : List Byte) (t : Nat) : field bs t 0 = 0 := Nat.mod_one _

/-- The class of a failed lookup as 41_bit_extract.md R137 has it: `OOB` is too few bits, anything else the store's failure. -/
theorem reasonClass_eq (r : Reason) : reasonClass r = if r = .oob then .insufficientData else .backingStoreFailure := by
  cases r <;> rfl

/-- Where the bits remain, the walk on a quiet store yields the content's field and leaves the store quiet (R136, R138). -/
theorem walk_of_hasBits {n : Nat} {c : Cursor} {st : Store} (hq : st.quiet = true) (hc : c.byte ≤ Config.maxOffset)
    (hb : st.hasBits c n) :
    ∃ bs st', walk n c st = (.ok bs, st') ∧ st'.quiet = true ∧ st.sameContent st' ∧
      field bs c.bit n = st.content.fieldAt c.address n := by
  obtain ⟨hq', hok, _⟩ := walk_quiet (n := n) hq hc
  obtain ⟨_, hfield, _⟩ := fetchField_quiet (n := n) hq hc
  refine ⟨_, _, Prod.ext (hok hb) rfl, hq', sameContent_walk n c st, ?_⟩
  have hf := hfield hb
  rw [fetchField_eq, hok hb] at hf
  exact Except.ok.inj hf

/-- Where too few bits remain, the walk on a quiet store fails with `OOB` and leaves the store quiet (R138). -/
theorem walk_of_not_hasBits {n : Nat} {c : Cursor} {st : Store} (hq : st.quiet = true) (hc : c.byte ≤ Config.maxOffset)
    (hb : ¬ st.hasBits c n) :
    ∃ st', walk n c st = (.error .oob, st') ∧ st'.quiet = true ∧ st.sameContent st' := by
  obtain ⟨hq', _, herr⟩ := walk_quiet (n := n) hq hc
  exact ⟨_, Prod.ext (herr hb) rfl, hq', sameContent_walk n c st⟩

/-- A walk over at least one bit ends at its first lookup if that fails (R130). -/
theorem walk_of_lookup_error {n : Nat} {c : Cursor} {st st' : Store} {r : Reason} (hn : 1 ≤ n)
    (hl : st.lookup c.byte = (.error r, st')) : walk n c st = (.error r, st') := by
  obtain ⟨k, hk⟩ : ∃ k, bytesTouched c.bit n = k + 1 := Nat.exists_eq_succ_of_ne_zero (by rw [bytesTouched]; omega)
  rw [walk, if_neg (Nat.one_le_iff_ne_zero.mp hn), hk, walkFrom, hl]

/-- An advance by whole bytes keeps the bit offset (41_bit_extract.md R134). -/
theorem cursorAt_address_add_bytes (c : Cursor) (k : Nat) :
    cursorAt (c.address + 8 * k) = { byte := c.byte + k, bit := c.bit } := by
  obtain ⟨b, t, ht⟩ := c
  simp only [cursorAt, Cursor.address, Cursor.mk.injEq, Fin.mk.injEq]
  omega

/-- A failure's STATUS is not that of a success (10_state.md R30). -/
theorem statusFail_ne_one (e : ErrClass) : statusFail e ≠ 1 := by
  cases e <;> decide

/-! ### How a command ends, by the end of its walk -/

section
variable {s : State} {n : Nat} {st : Store} {bs : List Byte} {r : Reason}

theorem State.finish_fetchField_of_walk_ok {k : State → Nat → State} (hw : walk n s.eng.cur s.store = (.ok bs, st)) :
    s.finish (fetchField n s.eng.cur s.store) k = k (s.withStore st) (field bs s.eng.cur.bit n) := by
  rw [fetchField, hw]
  rfl

theorem State.finish_fetchField_of_walk_error {k : State → Nat → State} (hw : walk n s.eng.cur s.store = (.error r, st)) :
    s.finish (fetchField n s.eng.cur s.store) k = s.failed st (reasonClass r) := by
  rw [fetchField, hw]
  rfl

theorem consume_of_walk_ok (hw : walk n s.eng.cur s.store = (.ok bs, st)) :
    consume n s = s.succeeded st (cursorAt (s.eng.cur.address + n)) 0 0 := by
  rw [consume, hw]
  rfl

theorem consume_of_walk_error (hw : walk n s.eng.cur s.store = (.error r, st)) :
    consume n s = s.failed st (reasonClass r) := by
  rw [consume, hw]
  rfl

theorem State.writeField_of_walk_error (v : Nat) (hw : walk n s.eng.cur s.store = (.error r, st)) :
    s.writeField v n = s.failed st (reasonClass r) := by
  rw [State.writeField, hw]
  rfl

/-- A field of no bits looks nothing up and is 0. -/
theorem State.finish_fetchField_zero (s : State) (k : State → Nat → State) :
    s.finish (fetchField 0 s.eng.cur s.store) k = k s 0 := by
  rw [State.finish_fetchField_of_walk_ok (walk_zero _ _), field_zero]
  rfl

/-! ### The five commands, by the end of their walk -/

theorem exec_remainingBits_of_walk_ok (hw : walk (opCount s) s.eng.cur s.store = (.ok bs, st)) :
    exec .remainingBits s = .next (s.succeeded st s.eng.cur 1 0) := by
  rw [exec, execRemainingBits, hw]
  rfl

theorem exec_remainingBits_of_walk_error (hw : walk (opCount s) s.eng.cur s.store = (.error r, st)) :
    exec .remainingBits s = .next (s.succeeded st s.eng.cur 0 0) := by
  rw [exec, execRemainingBits, hw]
  rfl

theorem exec_consumeBits_of_walk_ok (hw : walk (opCount s) s.eng.cur s.store = (.ok bs, st)) :
    exec .consumeBits s = .next (s.succeeded st (cursorAt (s.eng.cur.address + opCount s)) 0 0) :=
  congrArg Host.Outcome.next (consume_of_walk_ok hw)

theorem exec_consumeBits_of_walk_error (hw : walk (opCount s) s.eng.cur s.store = (.error r, st)) :
    exec .consumeBits s = .next (s.failed st (reasonClass r)) :=
  congrArg Host.Outcome.next (consume_of_walk_error hw)

theorem exec_consumeBytes_of_walk_ok (hw : walk (8 * opCount s) s.eng.cur s.store = (.ok bs, st)) :
    exec .consumeBytes s = .next (s.succeeded st { byte := s.eng.cur.byte + opCount s, bit := s.eng.cur.bit } 0 0) := by
  rw [← cursorAt_address_add_bytes]
  exact congrArg Host.Outcome.next (consume_of_walk_ok hw)

theorem exec_consumeBytes_of_walk_error (hw : walk (8 * opCount s) s.eng.cur s.store = (.error r, st)) :
    exec .consumeBytes s = .next (s.failed st (reasonClass r)) :=
  congrArg Host.Outcome.next (consume_of_walk_error hw)

theorem exec_peekBits_of_gt (h : opCount s > Config.maxFieldBits) :
    exec .peekBits s = .next (s.failed s.store .invalidArgument) := if_pos h

/-- PEEK_BITS of up to 64 bits is one fetch, a width of 0 included (41_bit_extract.md R132). -/
theorem exec_peekBits_of_le (h : opCount s ≤ Config.maxFieldBits) :
    exec .peekBits s = .next (s.finish (fetchField (opCount s) s.eng.cur s.store) fun s' v =>
      s'.done (BitVec.ofNat 64 v) 0) := by
  simp only [exec, execPeekBits]
  rw [if_neg (Nat.not_lt.mpr h)]
  split_ifs with h0
  · rw [h0, State.finish_fetchField_zero]
    rfl
  · rfl

theorem exec_peekBits_of_walk_ok (h : opCount s ≤ Config.maxFieldBits)
    (hw : walk (opCount s) s.eng.cur s.store = (.ok bs, st)) :
    exec .peekBits s = .next (s.succeeded st s.eng.cur (BitVec.ofNat 64 (field bs s.eng.cur.bit (opCount s))) 0) := by
  rw [exec_peekBits_of_le h, State.finish_fetchField_of_walk_ok hw]
  rfl

theorem exec_peekBits_of_walk_error (h : opCount s ≤ Config.maxFieldBits)
    (hw : walk (opCount s) s.eng.cur s.store = (.error r, st)) :
    exec .peekBits s = .next (s.failed st (reasonClass r)) := by
  rw [exec_peekBits_of_le h, State.finish_fetchField_of_walk_error hw]

theorem exec_readBits_of_gt (h : opCount s > Config.maxFieldBits) :
    exec .readBits s = .next (s.failed s.store .invalidArgument) := if_pos h

/-- READ_BITS of up to 64 bits is one fetch and the advance past it, a width of 0 included (41_bit_extract.md R135). -/
theorem exec_readBits_of_le (h : opCount s ≤ Config.maxFieldBits) :
    exec .readBits s = .next (s.finish (fetchField (opCount s) s.eng.cur s.store) fun s' v =>
      (s'.moveTo (advance (opCount s) s.eng.cur)).done (BitVec.ofNat 64 v) 0) := by
  simp only [exec, execReadBits]
  rw [if_neg (Nat.not_lt.mpr h)]
  split_ifs with h0
  · rw [h0, State.finish_fetchField_zero, advance_zero]
    rfl
  · rfl

theorem exec_readBits_of_walk_ok (h : opCount s ≤ Config.maxFieldBits)
    (hw : walk (opCount s) s.eng.cur s.store = (.ok bs, st)) :
    exec .readBits s = .next (s.succeeded st (cursorAt (s.eng.cur.address + opCount s))
      (BitVec.ofNat 64 (field bs s.eng.cur.bit (opCount s))) 0) := by
  rw [exec_readBits_of_le h, State.finish_fetchField_of_walk_ok hw]
  rfl

theorem exec_readBits_of_walk_error (h : opCount s ≤ Config.maxFieldBits)
    (hw : walk (opCount s) s.eng.cur s.store = (.error r, st)) :
    exec .readBits s = .next (s.failed st (reasonClass r)) := by
  rw [exec_readBits_of_le h, State.finish_fetchField_of_walk_error hw]

/-! ### The other walking commands, when their first walk fails -/

theorem readUint_of_walk_error {k : Nat} (bo : ByteOrder) (hw : walk (8 * k) s.eng.cur s.store = (.error r, st)) :
    readUint k bo s = s.failed st (reasonClass r) :=
  State.finish_fetchField_of_walk_error hw

/-- The decoding of a code word fails if the walk to its first bit does (44_golomb_decode.md R171). -/
theorem State.finish_fetchCode_of_walk_error {k : State → Nat × Cursor → State}
    (hw : walk 1 s.eng.cur s.store = (.error r, st)) :
    s.finish (fetchCode s.eng.cur s.store) k = s.failed st (reasonClass r) := by
  rw [fetchCode, Config.zeroRunLimit, scanZeros, fetchField, hw]
  rfl

/-- A write whose operands pass fails if the walk over its field does (45_bit_insert.md R180). -/
theorem exec_write_of_walk_error {i : Instr} (hi : writtenWidth i s = some n) (hn : 1 ≤ n)
    (hw : walk n s.eng.cur s.store = (.error r, st)) : exec i s = .next (s.failed st (reasonClass r)) := by
  obtain ⟨v, hexec, _⟩ := exec_write hi
  rw [hexec (Nat.one_le_iff_ne_zero.mp hn), State.writeField_of_walk_error v hw]

end

/-! ### The cursor is kept -/

theorem exec_remainingBits_cur {s t : State} (ht : exec .remainingBits s = .next t) : t.eng.cur = s.eng.cur := by
  rcases hw : walk (opCount s) s.eng.cur s.store with ⟨r | bs, st⟩
  · cases ht.symm.trans (exec_remainingBits_of_walk_error hw)
    rfl
  · cases ht.symm.trans (exec_remainingBits_of_walk_ok hw)
    rfl

theorem exec_peekBits_cur {s t : State} (ht : exec .peekBits s = .next t) : t.eng.cur = s.eng.cur := by
  rcases Nat.lt_or_ge Config.maxFieldBits (opCount s) with hn | hn
  · cases ht.symm.trans (exec_peekBits_of_gt hn)
    rfl
  · rcases hw : walk (opCount s) s.eng.cur s.store with ⟨r | bs, st⟩
    · cases ht.symm.trans (exec_peekBits_of_walk_error hn hw)
      rfl
    · cases ht.symm.trans (exec_peekBits_of_walk_ok hn hw)
      rfl

/-- Every command that is no success leaves the cursor as at entry (60_exceptions.md R201). -/
theorem exec_cur_of_failed {i : Instr} {s t : State} (ht : exec i s = .next t) (hst : t.eng.status ≠ 1) :
    t.eng.cur = s.eng.cur := by
  rcases responds_of_exec ht with ⟨_, _, rfl⟩ | ⟨_, _, _, _, rfl, _⟩
  · rfl
  · exact absurd rfl hst

/-! ### The obligations -/

/-- Settles O19: the first lookup of every walk misses and fails with `IO`, and each command ends as its first walk does; the
operands' bounds leave no command that fails, or succeeds, before it walks. -/
theorem failedLookupFailsTheCommand : Obligations.FailedLookupFailsTheCommand := by
  intro i bo s w d hi h1 h64 hmax hmin hstore hmiss hdraw
  have hlookup : s.store.lookup s.eng.cur.byte =
      (.error .io, .windowed { w with stream := w.stream.draw.2, window := [] }) := by
    rw [hstore, Store.lookup, WindowedStore.lookup_of_failedRead hmiss hdraw]
  have hwalk := fun n (hn : 1 ≤ n) => walk_of_lookup_error hn hlookup
  have hread := fun k (hk : 1 ≤ 8 * k) => readUint_of_walk_error bo (hwalk (8 * k) hk)
  have hwrite := fun n (hn : 1 ≤ n) (hw : writtenWidth i s = some n) => exec_write_of_walk_error hw hn (hwalk n hn)
  simp only [List.mem_cons, List.not_mem_nil, or_false] at hi
  rcases hi with rfl | rfl | rfl | rfl | rfl | rfl | rfl | rfl | rfl | rfl | rfl | rfl | rfl | rfl | rfl | rfl | rfl
  · exact exec_peekBits_of_walk_error h64 (hwalk _ h1)
  · exact exec_consumeBits_of_walk_error (hwalk _ h1)
  · exact exec_consumeBytes_of_walk_error (hwalk _ (by omega))
  · exact exec_readBits_of_walk_error h64 (hwalk _ h1)
  · exact congrArg Host.Outcome.next (hread 1 (by decide))
  · exact congrArg Host.Outcome.next (hread 2 (by decide))
  · exact congrArg Host.Outcome.next (hread 4 (by decide))
  · exact congrArg Host.Outcome.next (hread 8 (by decide))
  · exact congrArg Host.Outcome.next (State.finish_fetchCode_of_walk_error (hwalk 1 (le_refl 1)))
  · exact congrArg Host.Outcome.next (State.finish_fetchCode_of_walk_error (hwalk 1 (le_refl 1)))
  · exact hwrite _ h1 (if_pos h64)
  · exact hwrite 8 (by decide) rfl
  · exact hwrite 16 (by decide) rfl
  · exact hwrite 32 (by decide) rfl
  · exact hwrite 64 (by decide) rfl
  · exact hwrite _ (one_le_codeWidth _) (if_neg hmax)
  · exact hwrite _ (one_le_codeWidth _) (if_neg hmin)

/-- Settles O20: the answer is the end of the walk, and a quiet store decides it by the bits that remain. -/
theorem remainingBitsResponds : Obligations.RemainingBitsResponds := by
  refine ⟨by decide, fun s hs => ?_⟩
  obtain ⟨_, hc⟩ := State.inBounds_of_inv hs
  refine ⟨fun h0 => ?_, fun hq hb => ?_, fun hq hb => ?_, fun r st hw => exec_remainingBits_of_walk_error hw,
    fun bs st hw => exec_remainingBits_of_walk_ok hw⟩
  · exact exec_remainingBits_of_walk_ok (by rw [opCount, h0]; exact walk_zero _ _)
  · obtain ⟨_, st, hw, hq', hsame, _⟩ := walk_of_hasBits hq hc hb
    exact ⟨st, hq', hsame, exec_remainingBits_of_walk_ok hw⟩
  · obtain ⟨st, hw, hq', hsame⟩ := walk_of_not_hasBits hq hc hb
    exact ⟨st, hq', hsame, exec_remainingBits_of_walk_error hw⟩

/-- Settles O21: the width check, and below it the end of one walk; on a quiet store the walk's field is the content's. -/
theorem peekBitsResponds : Obligations.PeekBitsResponds := by
  refine ⟨by decide, fun s hs => ?_⟩
  obtain ⟨_, hc⟩ := State.inBounds_of_inv hs
  refine ⟨exec_peekBits_of_gt, fun h0 => ?_, fun hn hq hb => ?_, fun hn hq hb => ?_, fun r st hn hw => ?_,
    fun bs st hn hw => exec_peekBits_of_walk_ok hn hw⟩
  · have hz : opCount s = 0 := congrArg BitVec.toNat h0
    rw [exec_peekBits_of_walk_ok (by omega) (by rw [hz]; exact walk_zero _ _), hz, field_zero]
    rfl
  · obtain ⟨_, st, hw, hq', hsame, hfield⟩ := walk_of_hasBits hq hc hb
    exact ⟨st, hq', hsame, hfield ▸ exec_peekBits_of_walk_ok hn hw⟩
  · obtain ⟨st, hw, hq', hsame⟩ := walk_of_not_hasBits hq hc hb
    exact ⟨st, hq', hsame, exec_peekBits_of_walk_error hn hw⟩
  · rw [← reasonClass_eq]
    exact exec_peekBits_of_walk_error hn hw

/-- Settles O22: the advance is the end of one walk of `n` bits, with no bound on `n`. -/
theorem consumeBitsResponds : Obligations.ConsumeBitsResponds := by
  refine ⟨by decide, fun s hs => ?_⟩
  obtain ⟨_, hc⟩ := State.inBounds_of_inv hs
  refine ⟨fun h0 => ?_, fun hq hb => ?_, fun hq hb => ?_, fun r st hw => ?_, fun bs st hw => exec_consumeBits_of_walk_ok hw⟩
  · have hz : opCount s = 0 := congrArg BitVec.toNat h0
    rw [exec_consumeBits_of_walk_ok (by rw [hz]; exact walk_zero _ _), hz, Nat.add_zero, cursorAt_address]
  · obtain ⟨_, st, hw, hq', hsame, _⟩ := walk_of_hasBits hq hc hb
    exact ⟨st, hq', hsame, exec_consumeBits_of_walk_ok hw⟩
  · obtain ⟨st, hw, hq', hsame⟩ := walk_of_not_hasBits hq hc hb
    exact ⟨st, hq', hsame, exec_consumeBits_of_walk_error hw⟩
  · rw [← reasonClass_eq]
    exact exec_consumeBits_of_walk_error hw

/-- Settles O23: the advance is the end of one walk of `8n` bits, a natural number that never wraps. -/
theorem consumeBytesResponds : Obligations.ConsumeBytesResponds := by
  refine ⟨by decide, fun s hs => ?_⟩
  obtain ⟨_, hc⟩ := State.inBounds_of_inv hs
  refine ⟨fun h0 => ?_, fun hq hb => ?_, fun hq hb => ?_, fun r st hw => ?_, fun bs st hw => exec_consumeBytes_of_walk_ok hw⟩
  · have hz : opCount s = 0 := congrArg BitVec.toNat h0
    rw [exec_consumeBytes_of_walk_ok (by rw [hz]; exact walk_zero _ _), hz, Nat.add_zero]
  · obtain ⟨_, st, hw, hq', hsame, _⟩ := walk_of_hasBits hq hc hb
    exact ⟨st, hq', hsame, exec_consumeBytes_of_walk_ok hw⟩
  · obtain ⟨st, hw, hq', hsame⟩ := walk_of_not_hasBits hq hc hb
    exact ⟨st, hq', hsame, exec_consumeBytes_of_walk_error hw⟩
  · rw [← reasonClass_eq]
    exact exec_consumeBytes_of_walk_error hw

/-- Settles O24: as PEEK_BITS, with the advance past the field on success. -/
theorem readBitsResponds : Obligations.ReadBitsResponds := by
  refine ⟨by decide, fun s hs => ?_⟩
  obtain ⟨_, hc⟩ := State.inBounds_of_inv hs
  refine ⟨exec_readBits_of_gt, fun h0 => ?_, fun hn hq hb => ?_, fun hn hq hb => ?_, fun r st hn hw => ?_,
    fun bs st hn hw => exec_readBits_of_walk_ok hn hw⟩
  · have hz : opCount s = 0 := congrArg BitVec.toNat h0
    rw [exec_readBits_of_walk_ok (by omega) (by rw [hz]; exact walk_zero _ _), hz, field_zero, Nat.add_zero, cursorAt_address]
    rfl
  · obtain ⟨_, st, hw, hq', hsame, hfield⟩ := walk_of_hasBits hq hc hb
    exact ⟨st, hq', hsame, hfield ▸ exec_readBits_of_walk_ok hn hw⟩
  · obtain ⟨st, hw, hq', hsame⟩ := walk_of_not_hasBits hq hc hb
    exact ⟨st, hq', hsame, exec_readBits_of_walk_error hn hw⟩
  · rw [← reasonClass_eq]
    exact exec_readBits_of_walk_error hn hw

/-- Settles O25: both commands make the same walk, and each reports its end. -/
theorem remainingAgreesWithConsume : Obligations.RemainingAgreesWithConsume := by
  intro s t u ht hu
  rcases hw : walk (opCount s) s.eng.cur s.store with ⟨r | bs, st⟩
  · cases ht.symm.trans (exec_remainingBits_of_walk_error hw)
    cases hu.symm.trans (exec_consumeBits_of_walk_error hw)
    exact iff_of_false (show (0 : Word) ≠ 1 by decide) (statusFail_ne_one _)
  · cases ht.symm.trans (exec_remainingBits_of_walk_ok hw)
    cases hu.symm.trans (exec_consumeBits_of_walk_ok hw)
    exact iff_of_true rfl rfl

/-- Settles O26: REMAINING_BITS leaves a quiet store with the same content, so as many bits remain for the walk after it. -/
theorem remainingPredictsConsume : Obligations.RemainingPredictsConsume := by
  intro s t u hs hq ht hu
  obtain ⟨_, hc⟩ := State.inBounds_of_inv hs
  by_cases hb : s.store.hasBits s.eng.cur (opCount s)
  · obtain ⟨_, st, hw, hq', hsame, _⟩ := walk_of_hasBits hq hc hb
    cases ht.symm.trans (exec_remainingBits_of_walk_ok hw)
    obtain ⟨_, _, hw', _⟩ := walk_of_hasBits hq' hc ((Store.hasBits_sameContent hsame _ _).mpr hb)
    cases hu.symm.trans (exec_consumeBits_of_walk_ok hw')
    exact iff_of_true rfl rfl
  · obtain ⟨st, hw, hq', hsame⟩ := walk_of_not_hasBits hq hc hb
    cases ht.symm.trans (exec_remainingBits_of_walk_error hw)
    obtain ⟨_, hw', _⟩ := walk_of_not_hasBits hq' hc (mt (Store.hasBits_sameContent hsame _ _).mp hb)
    cases hu.symm.trans (exec_consumeBits_of_walk_error hw')
    exact iff_of_false (show (0 : Word) ≠ 1 by decide) (statusFail_ne_one _)

/-- Settles O27: the three commands make the same walk, and end as it does. -/
theorem readIsPeekThenConsume : Obligations.ReadIsPeekThenConsume := by
  intro s p c r hn hp hc hr
  rcases hw : walk (opCount s) s.eng.cur s.store with ⟨e | bs, st⟩
  · cases hp.symm.trans (exec_peekBits_of_walk_error hn hw)
    cases hc.symm.trans (exec_consumeBits_of_walk_error hw)
    cases hr.symm.trans (exec_readBits_of_walk_error hn hw)
    exact ⟨rfl, rfl, rfl, rfl, rfl⟩
  · cases hp.symm.trans (exec_peekBits_of_walk_ok hn hw)
    cases hc.symm.trans (exec_consumeBits_of_walk_ok hw)
    cases hr.symm.trans (exec_readBits_of_walk_ok hn hw)
    exact ⟨rfl, rfl, rfl, rfl, rfl⟩

/-- Settles O28: none of the five is a write, so `nonWritersKeepContent` gives the store; the cursor moves on a success only, and
REMAINING_BITS and PEEK_BITS end at the entry cursor either way. -/
theorem bitExtractionEffects : Obligations.BitExtractionEffects := by
  intro i s t hi ht
  refine ⟨nonWritersKeepContent i s t ?_ ht, fun hkeep => ?_, exec_cur_of_failed ht⟩
  · simp only [List.mem_cons, List.not_mem_nil, or_false] at hi
    rcases hi with rfl | rfl | rfl | rfl | rfl <;> rfl
  · simp only [List.mem_cons, List.not_mem_nil, or_false] at hkeep
    rcases hkeep with rfl | rfl
    · exact exec_remainingBits_cur ht
    · exact exec_peekBits_cur ht

end Sys2Proof.Machine
end

section
/-! Fixed-width unpack: the four READ_Uxx are one `readUint`, whose every end is an end of one walk; the byte order takes part in
the value only (42_fixed_width_unpack.md R150 to R155). -/

namespace Sys2Proof.Machine

/-! ### The value of `k` bytes in a byte order -/

theorem ordered_eq (bo : ByteOrder) (k v : Nat) : ordered bo k v = if bo = .big then v else byteSwap k v := by
  cases bo <;> rfl

/-- Group `j` of 8 bits of a value, counted from its most significant one, is byte `k - 1 - j` of the value read big-endian and
byte `j` of the value read little-endian (42_fixed_width_unpack.md R154). -/
theorem ordered_byte (bo : ByteOrder) (v : Nat) {k j : Nat} (h : j < k) :
    ordered bo k v / 2 ^ (8 * (if bo = .big then k - 1 - j else j)) % 2 ^ 8 = v / 2 ^ (8 * (k - 1 - j)) % 2 ^ 8 := by
  cases bo with
  | big => rfl
  | little => exact byteSwap_byte v h

/-- A value of at most 8 bytes fits a result register. -/
theorem toNat_ofNat_word {k v : Nat} (hk : k ≤ 8) (hv : v < 2 ^ (8 * k)) : (BitVec.ofNat 64 v).toNat = v := by
  rw [BitVec.toNat_ofNat, Nat.mod_eq_of_lt (hv.trans_le (Nat.pow_le_pow_right two_pos (by omega)))]

/-! ### READ_Uxx, by the end of its walk -/

theorem readUint_of_walk_ok {s : State} {k : Nat} {st : Store} {bs : List Byte} (bo : ByteOrder)
    (hw : walk (8 * k) s.eng.cur s.store = (.ok bs, st)) :
    readUint k bo s = s.succeeded st (cursorAt (s.eng.cur.address + 8 * k))
      (BitVec.ofNat 64 (ordered bo k (field bs s.eng.cur.bit (8 * k)))) 0 :=
  State.finish_fetchField_of_walk_ok hw

/-- The two byte orders make the same walk: a failure's results are 0, its own reversal, and a success's are the field and its
reversal, which fit the register (42_fixed_width_unpack.md R155). -/
theorem readUint_byteOrder (s : State) {k : Nat} (hk : k ≤ 8) :
    readUint k .little s = { readUint k .big s with
        eng := { (readUint k .big s).eng with res0 := (readUint k .little s).eng.res0 } } ∧
      (readUint k .little s).eng.res0.toNat = byteSwap k (readUint k .big s).eng.res0.toNat ∧
      (readUint k .big s).eng.res0.toNat = byteSwap k (readUint k .little s).eng.res0.toNat := by
  rcases hw : walk (8 * k) s.eng.cur s.store with ⟨r | bs, st⟩
  · rw [readUint_of_walk_error .little hw, readUint_of_walk_error .big hw]
    exact ⟨rfl, (byteSwap_zero k).symm, (byteSwap_zero k).symm⟩
  · have hv : field bs s.eng.cur.bit (8 * k) < 2 ^ (8 * k) := field_lt _ _ _
    have hbig := toNat_ofNat_word hk hv
    have hlittle := toNat_ofNat_word hk (byteSwap_lt k (field bs s.eng.cur.bit (8 * k)))
    rw [readUint_of_walk_ok .little hw, readUint_of_walk_ok .big hw]
    refine ⟨rfl, hlittle.trans (congrArg (byteSwap k) hbig.symm), hbig.trans ?_⟩
    exact (byteSwap_byteSwap hv).symm.trans (congrArg (byteSwap k) hlittle.symm)

/-! ### The obligations -/

/-- Settles O29: the four commands are `readUint`, which ends as its one walk does; on a quiet store the walk's field is the
content's, whose groups are the bytes of the ordered value. -/
theorem readUintResponds : Obligations.ReadUintResponds := by
  intro i k op bo s hi hs
  obtain ⟨_, hc⟩ := State.inBounds_of_inv hs
  obtain ⟨hdecode, hexec⟩ : decode (if bo = .big then op else op + 0x100) = i ∧ exec i s = .next (readUint k bo s) := by
    simp only [List.mem_cons, Prod.mk.injEq, List.not_mem_nil, or_false] at hi
    rcases hi with ⟨rfl, rfl, rfl⟩ | ⟨rfl, rfl, rfl⟩ | ⟨rfl, rfl, rfl⟩ | ⟨rfl, rfl, rfl⟩ <;>
      exact ⟨by cases bo <;> decide, rfl⟩
  rw [hexec]
  refine ⟨hdecode, fun hq hb => ?_, fun hq hb => ?_, fun r st hw => ?_, fun bs st hw => ?_⟩
  · obtain ⟨bs, st, hw, hq', hsame, hfield⟩ := walk_of_hasBits hq hc hb
    refine ⟨st, ordered bo k (s.store.content.fieldAt s.eng.cur.address (8 * k)), hq', hsame,
      ordered_lt bo (Memory.fieldAt_lt _ _ _), fun j hj => ?_, ?_⟩
    · rw [ordered_byte bo _ hj, Memory.fieldAt_group _ _ hj]
    · rw [readUint_of_walk_ok bo hw, hfield]
  · obtain ⟨st, hw, hq', hsame⟩ := walk_of_not_hasBits hq hc hb
    exact ⟨st, hq', hsame, congrArg Host.Outcome.next (readUint_of_walk_error bo hw)⟩
  · rw [readUint_of_walk_error bo hw, reasonClass_eq]
  · rw [readUint_of_walk_ok bo hw, ordered_eq]

/-- Settles O30: each pair of commands is `readUint` of one width of at most 8 bytes in the two byte orders. -/
theorem byteOrderChangesOnlyTheValue : Obligations.ByteOrderChangesOnlyTheValue := by
  intro i j k s t u hi ht hu
  simp only [List.mem_cons, Prod.mk.injEq, List.not_mem_nil, or_false] at hi
  rcases hi with ⟨rfl, rfl, rfl⟩ | ⟨rfl, rfl, rfl⟩ | ⟨rfl, rfl, rfl⟩ | ⟨rfl, rfl, rfl⟩ <;> cases ht <;> cases hu <;>
    exact readUint_byteOrder s (by decide)

end Sys2Proof.Machine
end

section
/-! Cursor control: SEEK ends as its range checks and its one lookup do, RESTORE_POS as its range checks do, and SAVE_POS's two
results are operands that pass them (43_cursor_control.md R160 to R164). -/

namespace Sys2Proof.Machine

/-! ### The position that two operands name -/

/-- A byte offset that is not negative reads the same unsigned (30_encoding.md R104). -/
theorem toNat_toInt_of_nonneg {w : Word} (h : 0 ≤ w.toInt) : w.toInt.toNat = w.toNat := by
  have hlt : 2 * w.toNat < 2 ^ 64 := Nat.lt_of_not_le (mt BitVec.toInt_neg_iff.mpr (Int.not_lt.mpr h))
  rw [BitVec.toInt_eq_toNat_of_lt hlt, Int.toNat_natCast]

/-- A byte offset up to MAX_OFFSET is not negative (00_scope.md R10). -/
theorem toInt_nonneg_of_le_maxOffset {w : Word} (h : w.toNat ≤ Config.maxOffset) : 0 ≤ w.toInt := by
  have hlt : 2 * w.toNat < 2 ^ 64 := by
    rw [Config.maxOffset] at h
    omega
  exact Int.not_lt.mp (mt BitVec.toInt_neg_iff.mp (Nat.not_le.mpr hlt))

theorem position_eq_cursorAt {w : Word} {t : Nat} (hb : 0 ≤ w.toInt) (ht : t ≤ 7) :
    position w.toInt t = cursorAt (8 * w.toNat + t) := by
  simp only [position, cursorAt, toNat_toInt_of_nonneg hb, Cursor.mk.injEq, Fin.mk.injEq]
  omega

/-! ### One lookup on a quiet store (20_memory.md R65, R73) -/

theorem Store.lookup_of_lt_length {st : Store} (hq : st.quiet = true) {o : Nat} (ho : o < st.length) :
    ∃ b st', st.lookup o = (.ok b, st') ∧ st'.quiet = true ∧ st.sameContent st' := by
  have hmax := ho.le.trans (Store.length_le (Store.quiet_iff.mp hq).1)
  obtain ⟨hok, hq'⟩ := Store.lookup_quiet hq hmax
  rw [Store.byteAt, if_pos ho] at hok
  exact ⟨_, _, Prod.ext hok rfl, hq', st.sameContent_lookup o⟩

theorem Store.lookup_of_length_le {st : Store} (hq : st.quiet = true) {o : Nat} (ho : st.length ≤ o)
    (hmax : o ≤ Config.maxOffset) : ∃ st', st.lookup o = (.error .oob, st') ∧ st'.quiet = true ∧ st.sameContent st' := by
  obtain ⟨herr, hq'⟩ := Store.lookup_quiet hq hmax
  rw [Store.byteAt, if_neg (Nat.not_lt.mpr ho)] at herr
  exact ⟨_, Prod.ext herr rfl, hq', st.sameContent_lookup o⟩

/-! ### The four commands, by their checks and lookup -/

section
variable {s : State} {st : Store}

theorem exec_seek_of_bit_gt (ht : s.eng.opb.toNat > 7) : exec .seek s = .next (s.failed s.store .invalidArgument) :=
  if_pos ht

theorem exec_seek_of_byte_neg (ht : s.eng.opb.toNat ≤ 7) (hb : s.eng.opa.toInt < 0) :
    exec .seek s = .next (s.failed s.store .invalidArgument) :=
  (if_neg (Nat.not_lt.mpr ht)).trans (if_pos hb)

theorem exec_seek_of_lookup_error {r : Reason} (ht : s.eng.opb.toNat ≤ 7) (hb : 0 ≤ s.eng.opa.toInt)
    (hl : s.store.lookup s.eng.opa.toNat = (.error r, st)) : exec .seek s = .next (s.failed st (reasonClass r)) := by
  rw [exec, execSeek, if_neg (Nat.not_lt.mpr ht), if_neg (Int.not_lt.mpr hb), toNat_toInt_of_nonneg hb, hl]
  cases r <;> rfl

theorem exec_seek_of_lookup_ok {b : Byte} (ht : s.eng.opb.toNat ≤ 7) (hb : 0 ≤ s.eng.opa.toInt)
    (hl : s.store.lookup s.eng.opa.toNat = (.ok b, st)) :
    exec .seek s = .next (s.succeeded st (cursorAt (8 * s.eng.opa.toNat + s.eng.opb.toNat)) 0 0) := by
  rw [exec, execSeek, if_neg (Nat.not_lt.mpr ht), if_neg (Int.not_lt.mpr hb), toNat_toInt_of_nonneg hb, hl,
    ← position_eq_cursorAt hb ht]
  rfl

theorem exec_savePos (s : State) : exec .savePos s =
    .next (s.succeeded s.store s.eng.cur (BitVec.ofNat 64 s.eng.cur.byte) (BitVec.ofNat 64 s.eng.cur.bit)) := rfl

theorem exec_restorePos_of_outOfRange (h : s.eng.opb.toNat > 7 ∨ s.eng.opa.toInt < 0) :
    exec .restorePos s = .next (s.failed s.store .invalidArgument) :=
  if_pos h

theorem exec_restorePos_of_inRange (ht : s.eng.opb.toNat ≤ 7) (hb : 0 ≤ s.eng.opa.toInt) :
    exec .restorePos s = .next (s.succeeded s.store (cursorAt (8 * s.eng.opa.toNat + s.eng.opb.toNat)) 0 0) := by
  rw [← position_eq_cursorAt hb ht]
  exact if_neg (not_or_intro (Nat.not_lt.mpr ht) (Int.not_lt.mpr hb))

end

/-! ### The obligations -/

/-- Settles O31: past the two range checks SEEK ends as its lookup does, and a quiet store decides that lookup by its length. -/
theorem seekResponds : Obligations.SeekResponds := by
  refine ⟨by decide, fun s _ => ⟨exec_seek_of_bit_gt, exec_seek_of_byte_neg, fun ht hb hq hin => ?_,
    fun ht hb hq hout => ?_, fun r st ht hb hl => ?_, fun b st => exec_seek_of_lookup_ok⟩⟩
  · obtain ⟨_, st, hl, hq', hsame⟩ := Store.lookup_of_lt_length hq hin
    exact ⟨st, hq', hsame, exec_seek_of_lookup_ok ht hb hl⟩
  · have hmax := toNat_toInt_of_nonneg hb ▸ toNat_toInt_le_maxOffset s.eng.opa
    obtain ⟨st, hl, hq', hsame⟩ := Store.lookup_of_length_le hq hout hmax
    exact ⟨st, hq', hsame, exec_seek_of_lookup_error ht hb hl⟩
  · rw [exec_seek_of_lookup_error ht hb hl, reasonClass_eq]

/-- Settles O32: the invariant's cursor fits the two registers. -/
theorem savePosResponds : Obligations.SavePosResponds := by
  refine ⟨by decide, fun s hs => ⟨_, exec_savePos s, rfl, ?_, ?_⟩⟩
  · have hbyte := (State.inBounds_of_inv hs).2
    rw [Config.maxOffset] at hbyte
    exact (BitVec.toNat_ofNat _ _).trans (Nat.mod_eq_of_lt (by omega))
  · exact (BitVec.toNat_ofNat _ _).trans (Nat.mod_eq_of_lt (s.eng.cur.bit.isLt.trans (by decide)))

/-- Settles O33: the two range checks are all that decides RESTORE_POS. -/
theorem restorePosResponds : Obligations.RestorePosResponds :=
  ⟨by decide, fun _ => ⟨exec_restorePos_of_outOfRange, exec_restorePos_of_inRange⟩⟩

/-- Settles O34: RESET_POS checks nothing and looks nothing up. -/
theorem resetPosResponds : Obligations.ResetPosResponds :=
  ⟨by decide, fun _ => rfl⟩

/-- Settles O35: SAVE_POS returns the cursor's byte and bit offsets (O32); they pass RESTORE_POS's range checks (O33) and name
the cursor they came from. -/
theorem restoreBringsBackTheSavedCursor : Obligations.RestoreBringsBackTheSavedCursor := by
  intro s t m hs ht hopa hopb
  obtain ⟨t', ht', _, hbyte, hbit⟩ := savePosResponds.2 s hs
  cases ht.symm.trans ht'
  rw [← hopa] at hbyte
  rw [← hopb] at hbit
  have hnonneg : 0 ≤ m.eng.opa.toInt := toInt_nonneg_of_le_maxOffset (hbyte ▸ (State.inBounds_of_inv hs).2)
  have hle : m.eng.opb.toNat ≤ 7 := hbit ▸ Nat.le_of_lt_succ s.eng.cur.bit.isLt
  have hpos : cursorAt (8 * m.eng.opa.toNat + m.eng.opb.toNat) = s.eng.cur := by
    rw [hbyte, hbit]
    exact cursorAt_address s.eng.cur
  rw [(restorePosResponds.2 m).2 hle hnonneg, hpos]

end Sys2Proof.Machine
end

section
/-! Exponential-Golomb decode: READ_UE and READ_SE are one decoding of a code word, whose ends are those of its zero scan and of
the walk after it; a quiet store decides them by its bits and its length (44_golomb_decode.md R170 to R174). -/

namespace Sys2Proof.Machine

/-! ### The two commands, by the end of the decoding -/

section
variable {s : State} {st : Store} {k : Nat} {c : Cursor} {e : ErrClass}

theorem exec_readUe_of_code (h : fetchCode s.eng.cur s.store = (.ok (k, c), st)) :
    exec .readUe s = .next (s.succeeded st c (BitVec.ofNat 64 k) 0) := by
  rw [exec, execReadUe, h]
  rfl

theorem exec_readSe_of_code (h : fetchCode s.eng.cur s.store = (.ok (k, c), st)) :
    exec .readSe s = .next (s.succeeded st c (BitVec.ofInt 64 (signedOfCode k)) 0) := by
  rw [exec, execReadSe, h]
  rfl

theorem exec_readUe_of_code_error (h : fetchCode s.eng.cur s.store = (.error e, st)) :
    exec .readUe s = .next (s.failed st e) := by
  rw [exec, execReadUe, h]
  rfl

theorem exec_readSe_of_code_error (h : fetchCode s.eng.cur s.store = (.error e, st)) :
    exec .readSe s = .next (s.failed st e) := by
  rw [exec, execReadSe, h]
  rfl

theorem exec_codeRead_of_code_error {i : Instr} (hi : i ∈ [.readUe, .readSe])
    (h : fetchCode s.eng.cur s.store = (.error e, st)) : exec i s = .next (s.failed st e) := by
  simp only [List.mem_cons, List.not_mem_nil, or_false] at hi
  rcases hi with rfl | rfl
  · exact exec_readUe_of_code_error h
  · exact exec_readSe_of_code_error h

/-- Whichever of the two reads a code word, the cursor ends after it. -/
theorem exec_codeRead_of_code {i : Instr} (hi : i ∈ [.readUe, .readSe])
    (h : fetchCode s.eng.cur s.store = (.ok (k, c), st)) : ∃ v, exec i s = .next (s.succeeded st c v 0) := by
  simp only [List.mem_cons, List.not_mem_nil, or_false] at hi
  rcases hi with rfl | rfl
  · exact ⟨_, exec_readUe_of_code h⟩
  · exact ⟨_, exec_readSe_of_code h⟩

end

/-! ### The value of a code word -/

/-- The signed reading of a code value fits a result register (44_golomb_decode.md R173). -/
theorem toInt_ofInt_signedOfCode {k : Nat} (h : k ≤ 2 ^ 64 - 2) :
    (BitVec.ofInt 64 (signedOfCode k)).toInt = signedOfCode k := by
  obtain ⟨hlo, hhi⟩ := signedOfCode_range h
  exact toInt_ofInt_word (by omega) (by omega)

/-- The value of a code word with at most 63 leading zeros is at most `2^64 - 2` (44_golomb_decode.md R171). -/
theorem Memory.codeValue_le (m : Memory) (p : Nat) {z : Nat} (hz : z ≤ 63) : m.fieldAt p (z + 1) - 1 ≤ 2 ^ 64 - 2 := by
  have hlt : m.fieldAt p (z + 1) < 2 ^ 64 := (m.fieldAt_lt p _).trans_le (Nat.pow_le_pow_right two_pos (by omega))
  omega

/-! ### The decoding on a quiet store -/

theorem Memory.fieldAt_eq_zero_of_le {m : Memory} {p k n : Nat} (h : k ≤ n) (hz : m.fieldAt p n = 0) : m.fieldAt p k = 0 := by
  have hk := (m.fieldAt_split p k (n - k)).1
  rwa [Nat.add_sub_cancel' h, hz, Nat.zero_div] at hk

/-- The data ends within a run of zero bits before the 64th (44_golomb_decode.md R171). -/
theorem fetchCode_zerosToEnd {n : Nat} {c : Cursor} {st : Store} (hq : st.quiet = true) (hc : c.byte ≤ Config.maxOffset)
    (hz : st.content.fieldAt c.address n = 0) (hend : 8 * st.length ≤ c.address + n) (h64 : 8 * st.length < c.address + 64) :
    ∃ st', st'.quiet = true ∧ st.sameContent st' ∧ fetchCode c st = (.error .insufficientData, st') :=
  fetchCode_noTerminator (k := 8 * st.length - c.address) hq hc (by omega) (Memory.fieldAt_eq_zero_of_le (by omega) hz)
    (by omega) (by omega)

/-- A decoding that succeeds on a quiet store met a code word and ends after it: without one, or with one that the data cuts
short, it fails (44_golomb_decode.md R171, R174). -/
theorem codeAt_of_fetchCode_ok {c c' : Cursor} {st st' : Store} {k : Nat} (hq : st.quiet = true)
    (hc : c.byte ≤ Config.maxOffset) (h : fetchCode c st = (.ok (k, c'), st')) :
    ∃ z, st.content.codeAt c.address z ∧ c' = cursorAt (c.address + (2 * z + 1)) := by
  have not_error : ∀ e, ¬ ∃ st', st'.quiet = true ∧ st.sameContent st' ∧ fetchCode c st = (.error e, st') := by
    rintro e ⟨_, _, _, he⟩
    cases h.symm.trans he
  rcases st.content.zeros_or_code c.address 64 with hzeros | ⟨z, hz, hcode⟩
  · rcases Nat.lt_or_ge (8 * st.length) (c.address + 64) with hend | hroom
    · exact absurd (fetchCode_zerosToEnd hq hc hzeros hend.le hend) (not_error _)
    · exact absurd (fetchCode_overlong hq hc hzeros hroom) (not_error _)
  · rcases Nat.lt_or_ge (c.address + z) (8 * st.length) with hone | hend
    · rcases Nat.lt_or_ge (8 * st.length) (c.address + (2 * z + 1)) with hcut | hroom
      · exact absurd (fetchCode_cutPayload hq hc hz hcode hone hcut) (not_error _)
      · obtain ⟨_, _, _, he⟩ := fetchCode_quiet hq hc hz hcode hroom
        cases h.symm.trans he
        exact ⟨z, hcode, rfl⟩
    · exact absurd (fetchCode_zerosToEnd hq hc hcode.1 hend (by omega)) (not_error _)

/-! ### The decoding on any store, by its walks -/

/-- `z` one-bit walks from bit address `p` on meet zero bits; `sts i` is the store after `i` of them (44_golomb_decode.md R171). -/
def ZeroWalks (p z : Nat) (sts : Nat → Store) : Prop :=
  ∀ i < z, ∃ bs, walk 1 (cursorAt (p + i)) (sts i) = (.ok bs, sts (i + 1)) ∧ field bs (cursorAt (p + i)).bit 1 = 0

section
variable {f z : Nat} {c : Cursor} {st st' : Store} {bs : List Byte} {r : Reason}

theorem scanZeros_of_walk_zero (hw : walk 1 c st = (.ok bs, st')) (hb : field bs c.bit 1 = 0) :
    scanZeros (f + 1) z c st = scanZeros f (z + 1) (cursorAt (c.address + 1)) st' := by
  rw [scanZeros, fetchField, hw]
  exact if_neg (by omega)

theorem scanZeros_of_walk_one (hw : walk 1 c st = (.ok bs, st')) (hb : field bs c.bit 1 = 1) :
    scanZeros (f + 1) z c st = (.ok (z, c), st') := by
  rw [scanZeros, fetchField, hw]
  exact if_pos hb

theorem scanZeros_of_walk_error (hw : walk 1 c st = (.error r, st')) :
    scanZeros (f + 1) z c st = (.error (reasonClass r), st') := by
  rw [scanZeros, fetchField, hw]

/-- The scan goes on from the end of the zero walks, with their count and the fuel they leave. -/
theorem scanZeros_of_zeroWalks {p : Nat} {sts : Nat → Store} (h : ZeroWalks p z sts) (f : Nat) :
    scanZeros (f + z) 0 (cursorAt p) (sts 0) = scanZeros f z (cursorAt (p + z)) (sts z) := by
  induction z generalizing f with
  | zero => rfl
  | succ z ih =>
    obtain ⟨bs, hw, hb⟩ := h z z.lt_succ_self
    calc scanZeros (f + (z + 1)) 0 (cursorAt p) (sts 0)
        = scanZeros (f + 1 + z) 0 (cursorAt p) (sts 0) := by rw [Nat.add_right_comm, Nat.add_assoc]
      _ = scanZeros (f + 1) z (cursorAt (p + z)) (sts z) := ih (fun i hi => h i (hi.trans z.lt_succ_self)) (f + 1)
      _ = scanZeros f (z + 1) (cursorAt (p + (z + 1))) (sts (z + 1)) := by
        rw [scanZeros_of_walk_zero hw hb, Cursor.address_cursorAt, Nat.add_assoc]

theorem fetchCode_of_scan_error {e : ErrClass} (h : scanZeros Config.zeroRunLimit 0 c st = (.error e, st')) :
    fetchCode c st = (.error e, st') := by
  rw [fetchCode, h]

theorem fetchCode_of_scan_of_walk_error {c' : Cursor} {st'' : Store}
    (h : scanZeros Config.zeroRunLimit 0 c st = (.ok (z, c'), st')) (hw : walk (z + 1) c' st' = (.error r, st'')) :
    fetchCode c st = (.error (reasonClass r), st'') := by
  rw [fetchCode, h]
  simp only [fetchField, hw]

theorem fetchCode_of_scan_of_walk_ok {c' : Cursor} {st'' : Store}
    (h : scanZeros Config.zeroRunLimit 0 c st = (.ok (z, c'), st')) (hw : walk (z + 1) c' st' = (.ok bs, st'')) :
    fetchCode c st = (.ok (field bs c'.bit (z + 1) - 1, cursorAt (c'.address + (z + 1))), st'') := by
  rw [fetchCode, h]
  simp only [fetchField, hw, advance_eq]

end

/-! ### The obligations -/

/-- Settles O36: the decoding of a code word on a quiet store is `fetchCode_quiet`. -/
theorem readUeDecodesCodeWords : Obligations.ReadUeDecodesCodeWords := by
  intro s z hs hq hz hcode hroom
  obtain ⟨_, hc⟩ := State.inBounds_of_inv hs
  obtain ⟨st, hq', hsame, h⟩ := fetchCode_quiet hq hc (Nat.lt_succ_of_le hz) hcode hroom
  exact ⟨st, hq', hsame, exec_readUe_of_code h⟩

/-- Settles O37: both commands end as the decoding fails; the data that ends before the 1 bit ends within a run of zeros, which
is empty where the cursor stands at the end. -/
theorem codeWordFailures : Obligations.CodeWordFailures := by
  intro i s z hi hs hq
  obtain ⟨_, hc⟩ := State.inBounds_of_inv hs
  have fails : ∀ e, (∃ st, st.quiet = true ∧ s.store.sameContent st ∧ fetchCode s.eng.cur s.store = (.error e, st)) →
      ∃ st, st.quiet = true ∧ s.store.sameContent st ∧ exec i s = .next (s.failed st e) :=
    fun e ⟨st, hq', hsame, h⟩ => ⟨st, hq', hsame, exec_codeRead_of_code_error hi h⟩
  refine ⟨fun hzeros hroom => fails _ ?_, fun hz hzeros hend => fails _ ?_, fun hend => fails _ ?_,
    fun hz hcode hone hcut => fails _ ?_⟩
  · exact fetchCode_overlong hq hc hzeros hroom
  · exact fetchCode_zerosToEnd hq hc hzeros hend.ge (by omega)
  · exact fetchCode_zerosToEnd (n := 0) hq hc rfl hend (by omega)
  · exact fetchCode_cutPayload hq hc (Nat.lt_succ_of_le hz) hcode hone hcut

/-- Settles O38: the decoding of O36, and a code value's signed reading fits RES0. -/
theorem readSeDecodesCodeWords : Obligations.ReadSeDecodesCodeWords := by
  intro s z k hs hq hz hcode hroom hk
  obtain ⟨_, hc⟩ := State.inBounds_of_inv hs
  obtain ⟨st, hq', hsame, h⟩ := fetchCode_quiet hq hc (Nat.lt_succ_of_le hz) hcode hroom
  have hle : k ≤ 2 ^ 64 - 2 := hk ▸ Memory.codeValue_le _ _ hz
  rw [← hk] at h
  exact ⟨st, _, hq', hsame, exec_readSe_of_code h, toInt_ofInt_signedOfCode hle⟩

/-- Settles O39: after the zero walks the scan has fuel for at least one more bit, and that bit's walk decides how it goes on. -/
theorem readUeOnAnyStore : Obligations.ReadUeOnAnyStore := by
  refine ⟨by decide, fun s z sts hz h0 hzeros => ?_⟩
  have hscan : scanZeros Config.zeroRunLimit 0 s.eng.cur s.store =
      scanZeros (63 - z + 1) z (cursorAt (s.eng.cur.address + z)) (sts z) := by
    have h := scanZeros_of_zeroWalks (p := s.eng.cur.address) hzeros (63 - z + 1)
    rwa [cursorAt_address, h0, show 63 - z + 1 + z = Config.zeroRunLimit by rw [Config.zeroRunLimit]; omega] at h
  refine ⟨fun r st hw => ?_, fun bs st hw hb hlast => ?_, fun bs st r st' hw hb hw' => ?_, fun bs st bs' st' hw hb hw' => ?_⟩
  · rw [← reasonClass_eq]
    exact exec_readUe_of_code_error (fetchCode_of_scan_error (hscan.trans (scanZeros_of_walk_error hw)))
  · subst hlast
    exact exec_readUe_of_code_error (fetchCode_of_scan_error (hscan.trans (scanZeros_of_walk_zero hw hb)))
  · rw [← reasonClass_eq]
    exact exec_readUe_of_code_error (fetchCode_of_scan_of_walk_error (hscan.trans (scanZeros_of_walk_one hw hb)) hw')
  · have h := fetchCode_of_scan_of_walk_ok (hscan.trans (scanZeros_of_walk_one hw hb)) hw'
    rw [Cursor.address_cursorAt, show s.eng.cur.address + z + (z + 1) = s.eng.cur.address + (2 * z + 1) by omega] at h
    exact exec_readUe_of_code h

/-- Settles O40: both commands end as the same decoding does; a failure's RES0 is 0, and a code value and its signed reading
fit RES0. -/
theorem readSeIsSignedReadUe : Obligations.ReadSeIsSignedReadUe := by
  refine ⟨by decide, fun s t u hs ht hu => ?_⟩
  obtain ⟨hstore, hc⟩ := State.inBounds_of_inv hs
  rcases hcode : fetchCode s.eng.cur s.store with ⟨e | ⟨k, c⟩, st⟩
  · cases ht.symm.trans (exec_readUe_of_code_error hcode)
    cases hu.symm.trans (exec_readSe_of_code_error hcode)
    exact ⟨rfl, by simp [State.failed]⟩
  · have hk : k < 2 ^ 64 - 1 := ((fetchCode_wf hstore hc).2 (k, c) (congrArg Prod.fst hcode)).1
    cases ht.symm.trans (exec_readUe_of_code hcode)
    cases hu.symm.trans (exec_readSe_of_code hcode)
    have hnat : (BitVec.ofNat 64 k).toNat = k := toNat_ofNat_word (k := 8) le_rfl (by omega)
    refine ⟨rfl, ?_⟩
    simp only [State.succeeded, hnat]
    exact toInt_ofInt_signedOfCode (by omega)

/-- Settles O41: neither command writes (O16), a failure keeps the cursor, and a success met a code word. -/
theorem codeReadsConsumeTheCodeWord : Obligations.CodeReadsConsumeTheCodeWord := by
  intro i s t hi hs hq ht
  obtain ⟨_, hc⟩ := State.inBounds_of_inv hs
  refine ⟨nonWritersKeepContent i s t ?_ ht, exec_cur_of_failed ht, fun hst => ?_⟩
  · simp only [List.mem_cons, List.not_mem_nil, or_false] at hi
    rcases hi with rfl | rfl <;> rfl
  · rcases hcode : fetchCode s.eng.cur s.store with ⟨e | ⟨k, c⟩, st⟩
    · cases ht.symm.trans (exec_codeRead_of_code_error hi hcode)
      exact absurd hst (statusFail_ne_one e)
    · obtain ⟨_, hexec⟩ := exec_codeRead_of_code hi hcode
      cases ht.symm.trans hexec
      exact codeAt_of_fetchCode_ok hq hc hcode

/-- Settles O51: the two cases of the mapping, and its range. -/
theorem signedMappingRange : Obligations.SignedMappingRange :=
  fun _ hk => ⟨fun heven => if_pos heven, fun hodd => if_neg (by omega), signedOfCode_range hk⟩

end Sys2Proof.Machine
end

section
/-! Bit insertion: the writes are one `write_field`, whose every end is an end of its walk or of its `Put`, and what a quiet
store holds after a success reads back (45_bit_insert.md R180 to R188). -/

namespace Sys2Proof.Machine

/-! ### The ends of `write_field` -/

section
variable {s : State} {n : Nat} {st : Store}

/-- A walk over no bits cannot fail (41_bit_extract.md R130). -/
theorem one_le_of_walk_error {c : Cursor} {st' : Store} {r : Reason} (hw : walk n c st = (.error r, st')) : 1 ≤ n := by
  refine Nat.one_le_iff_ne_zero.mpr fun h0 => ?_
  rw [h0, walk_zero] at hw
  cases hw

/-- After a walk that succeeds, `write_field` ends as its `Put` does (R180). -/
theorem State.writeField_of_walk_ok {bs : List Byte} {v : Nat} {q : PutResult} {st' : Store}
    (hw : walk n s.eng.cur s.store = (.ok bs, st))
    (hp : st.put (mergeField bs s.eng.cur.bit n v) s.eng.cur.byte = (q, st')) :
    s.writeField v n = if q = .stored then s.succeeded st' (cursorAt (s.eng.cur.address + n)) 0 0
      else s.failed st' .backingStoreFailure := by
  rw [State.writeField, hw]
  simp only [hp]
  cases q <;> rfl

/-- On a quiet store, only a field with room is written (R180). -/
theorem State.hasBits_of_writeField_done {v : Nat} (hq : s.store.quiet = true) (hc : s.eng.cur.byte ≤ Config.maxOffset)
    (hdone : (s.writeField v n).eng.status = 1) : s.store.hasBits s.eng.cur n := by
  by_contra hb
  obtain ⟨_, _, _, he⟩ := State.writeField_noRoom hq hc v hb
  rw [he] at hdone
  exact statusFail_ne_one _ hdone

/-- A `Put` of at least one byte whose stream write the oracle fails answers `false(IO)` and empties the window
(20_memory.md R69). -/
theorem Store.put_of_failedWrite {w : WindowedStore} {bytes : List Byte} {d : Config.Draw} (hb : bytes ≠ [])
    (hd : w.stream.draw.1 = some d) (o : Nat) :
    ∃ w' : WindowedStore, w'.window = [] ∧ (Store.windowed w).put bytes o = (.ioFailed, .windowed w') := by
  rcases w.stream.write_cases o bytes with ⟨d', str, _, _, _, he⟩ | ⟨hnone, _⟩
  · refine ⟨{ w with stream := str.failed o bytes d', window := [] }, rfl, ?_⟩
    rw [Store.put, WindowedStore.put, if_neg (mt List.eq_nil_of_length_eq_zero hb), he]
    rfl
  · rw [hd] at hnone
    cases hnone

/-! ### WRITE_BITS, by its width -/

theorem exec_writeBits_of_gt (h : opCount s > Config.maxFieldBits) :
    exec .writeBits s = .next (s.failed s.store .invalidArgument) := if_pos h

theorem exec_writeBits_of_zero (h : opCount s = 0) :
    exec .writeBits s = .next (s.succeeded s.store s.eng.cur 0 0) := by
  simp only [exec, execWriteBits]
  rw [if_neg (by omega), if_pos h]
  rfl

theorem exec_writeBits_of_pos (h1 : 1 ≤ opCount s) (h : opCount s ≤ Config.maxFieldBits) :
    exec .writeBits s = .next (s.writeField (opValue s) (opCount s)) := by
  simp only [exec, execWriteBits]
  rw [if_neg (Nat.not_lt.mpr h), if_neg (Nat.one_le_iff_ne_zero.mp h1)]

theorem exec_writeBits_of_walk_error {r : Reason} (h : opCount s ≤ Config.maxFieldBits)
    (hw : walk (opCount s) s.eng.cur s.store = (.error r, st)) : exec .writeBits s = .next (s.failed st (reasonClass r)) :=
  exec_write_of_walk_error (if_pos h) (one_le_of_walk_error hw) hw

end

/-! ### The bytes of a written integer -/

/-- Byte `i` of the low `k` bytes of a value is the value's byte `i`. -/
theorem mod_byte (v : Nat) {k i : Nat} (h : i < k) : v % 2 ^ (8 * k) / 2 ^ (8 * i) % 2 ^ 8 = v / 2 ^ (8 * i) % 2 ^ 8 := by
  rw [show 8 * k = 8 * i + 8 * (k - i) by omega, Nat.pow_add, Nat.mod_mul_right_div_self,
    Nat.mod_mod_of_dvd _ (Nat.pow_dvd_pow 2 (by omega))]

/-- Group `j` of 8 bits of the field that WRITE_Uxx stores is byte `k - 1 - j` of the value for big-endian and byte `j` for
little-endian (R186). -/
theorem ordered_group (bo : ByteOrder) (v : Nat) {k j : Nat} (h : j < k) :
    ordered bo k (v % 2 ^ (8 * k)) / 2 ^ (8 * (k - 1 - j)) % 2 ^ 8 =
      v / 2 ^ (8 * (if bo = .big then k - 1 - j else j)) % 2 ^ 8 := by
  have hlt : v % 2 ^ (8 * k) < 2 ^ (8 * k) := Nat.mod_lt _ (Nat.two_pow_pos _)
  rw [← ordered_byte bo _ h, ordered_ordered bo hlt, mod_byte v (by split_ifs <;> omega)]

/-! ### Reading back what was written -/

/-- The end cursor of `t` is `n` bits past the cursor of `s`, and a walk from the cursor of `s` over the store of `t` yields the
low `n` bits of `v` (R187). -/
def State.ReadsBack (s t : State) (n v : Nat) : Prop :=
  t.eng.cur = cursorAt (s.eng.cur.address + n) ∧
    ∃ bs st, walk n s.eng.cur t.store = (.ok bs, st) ∧ field bs s.eng.cur.bit n = v % 2 ^ n

/-- A field of no bits reads back from any store. -/
theorem State.readsBack_zero (s : State) (v : Nat) : s.ReadsBack (s.succeeded s.store s.eng.cur 0 0) 0 v :=
  ⟨(cursorAt_address s.eng.cur).symm, [], s.store, walk_zero _ _, by rw [field_zero, pow_zero, Nat.mod_one]⟩

/-- On a quiet store a `write_field` that succeeds reads back: the store it leaves is quiet, as long, and holds the field. -/
theorem State.readsBack_writeField {s : State} {n v : Nat} (hq : s.store.quiet = true) (hc : s.eng.cur.byte ≤ Config.maxOffset)
    (hn : n ≠ 0) (hdone : (s.writeField v n).eng.status = 1) : s.ReadsBack (s.writeField v n) n v := by
  have hb := State.hasBits_of_writeField_done hq hc hdone
  obtain ⟨st, hq', hshape, ⟨hfield, _⟩, he⟩ := State.writeField_quiet hq hc v hn hb
  have hb' : st.hasBits s.eng.cur n := by rwa [Store.hasBits, Store.sameShape_length hshape]
  obtain ⟨bs, st', hw, _, _, hread⟩ := walk_of_hasBits hq' hc hb'
  rw [he]
  exact ⟨rfl, bs, st', hw, hread.trans hfield⟩

/-- On a quiet store a WRITE_BITS that succeeds is of at most 64 bits and reads back, a width of 0 included. -/
theorem readsBack_of_writeBits {s t : State} (hq : s.store.quiet = true) (hc : s.eng.cur.byte ≤ Config.maxOffset)
    (ht : exec .writeBits s = .next t) (hdone : t.eng.status = 1) :
    opCount s ≤ Config.maxFieldBits ∧ s.ReadsBack t (opCount s) (opValue s) := by
  rcases Nat.lt_or_ge Config.maxFieldBits (opCount s) with hgt | hle
  · cases ht.symm.trans (exec_writeBits_of_gt hgt)
    exact absurd hdone (statusFail_ne_one _)
  · refine ⟨hle, ?_⟩
    rcases Nat.eq_zero_or_pos (opCount s) with h0 | h1
    · cases ht.symm.trans (exec_writeBits_of_zero h0)
      rw [h0]
      exact s.readsBack_zero _
    · cases ht.symm.trans (exec_writeBits_of_pos h1 hle)
      exact State.readsBack_writeField hq hc (Nat.one_le_iff_ne_zero.mp h1) hdone

/-! ### The obligations -/

/-- Settles O17: a write that passes its operand checks is one `write_field`, which keeps the bytes outside its range however it
ends, or stores nothing. -/
theorem writersKeepOtherBytes : Obligations.WritersKeepOtherBytes := by
  intro i s t n x hs hi ht hx hout
  obtain ⟨hstore, hc⟩ := State.inBounds_of_inv hs
  obtain ⟨v, hexec, hzero⟩ := exec_write hi
  rcases Nat.eq_zero_or_pos n with h0 | hpos
  · cases ht.symm.trans (hzero h0)
    rfl
  · cases ht.symm.trans (hexec hpos.ne')
    exact State.writeField_frame hstore hc v hx hout

/-- Settles O42: the width check, and below it one `write_field`, on a quiet store and on any. -/
theorem writeBitsResponds : Obligations.WriteBitsResponds := by
  refine ⟨by decide, fun s hs => ?_⟩
  obtain ⟨_, hc⟩ := State.inBounds_of_inv hs
  refine ⟨exec_writeBits_of_gt, fun h0 => exec_writeBits_of_zero (congrArg BitVec.toNat h0), fun h1 hn hq hb => ?_,
    fun hn hq hb => ?_, fun r st hn hw => ?_, fun bs st q st' h1 hn hw hp => ?_⟩
  · rw [exec_writeBits_of_pos h1 hn]
    obtain ⟨st, hq', hshape, hfield, he⟩ := State.writeField_quiet hq hc (opValue s) (Nat.one_le_iff_ne_zero.mp h1) hb
    exact ⟨st, hq', hshape, hfield, congrArg Host.Outcome.next he⟩
  · obtain ⟨st, hw, hq', hsame⟩ := walk_of_not_hasBits hq hc hb
    exact ⟨st, hq', hsame, exec_writeBits_of_walk_error hn hw⟩
  · rw [← reasonClass_eq]
    exact exec_writeBits_of_walk_error hn hw
  · rw [exec_writeBits_of_pos h1 hn, State.writeField_of_walk_ok hw hp]

/-- Settles O43: the four commands are one `write_field` of the ordered low bytes of OPB, whose groups are OPB's bytes. -/
theorem writeUintResponds : Obligations.WriteUintResponds := by
  intro i k op bo s hi hs
  obtain ⟨_, hc⟩ := State.inBounds_of_inv hs
  obtain ⟨hdecode, hk, hexec⟩ : decode (if bo = .big then op else op + 0x100) = i ∧ 8 * k ≠ 0 ∧
      exec i s = .next (s.writeField (ordered bo k (opValue s % 2 ^ (8 * k))) (8 * k)) := by
    simp only [List.mem_cons, Prod.mk.injEq, List.not_mem_nil, or_false] at hi
    rcases hi with ⟨rfl, rfl, rfl⟩ | ⟨rfl, rfl, rfl⟩ | ⟨rfl, rfl, rfl⟩ | ⟨rfl, rfl, rfl⟩ <;>
      exact ⟨by cases bo <;> decide, by decide, rfl⟩
  rw [hexec]
  refine ⟨hdecode, fun hq hb => ?_, fun hq hb => ?_, fun r st hw => ?_, fun bs st q st' hw hp => ?_⟩
  · obtain ⟨st, hq', hshape, hwritten, he⟩ :=
      State.writeField_quiet hq hc (ordered bo k (opValue s % 2 ^ (8 * k))) hk hb
    refine ⟨st, _, hq', hshape, hwritten, fun j hj => ?_, congrArg Host.Outcome.next he⟩
    obtain ⟨hfield, _⟩ := hwritten
    have hlt := ordered_lt bo (Nat.mod_lt (opValue s) (Nat.two_pow_pos (8 * k)))
    rw [Memory.fieldAt_group _ _ hj, hfield, Nat.mod_eq_of_lt hlt, ordered_group bo _ hj]
  · obtain ⟨st, hq', hsame, he⟩ := State.writeField_noRoom hq hc (ordered bo k (opValue s % 2 ^ (8 * k))) hb
    exact ⟨st, hq', hsame, congrArg Host.Outcome.next he⟩
  · rw [State.writeField_of_walk_error _ hw, reasonClass_eq]
  · rw [← ordered_eq] at hp
    rw [State.writeField_of_walk_ok hw hp]

/-- Settles O44: the merged bytes are as many as the walk's, so the `Put` reaches the stream, and its failure ends the write. -/
theorem failedPutFailsTheWrite : Obligations.FailedPutFailsTheWrite := by
  intro i s t n bs w d hi hn hw hbs hd ht
  obtain ⟨v, hexec, _⟩ := exec_write hi
  have hmerged : mergeField bs s.eng.cur.bit n v ≠ [] := by
    rwa [← List.length_pos_iff, length_mergeField, List.length_pos_iff]
  obtain ⟨w', hempty, hp⟩ := Store.put_of_failedWrite hmerged hd s.eng.cur.byte
  rw [hexec hn, State.writeField_of_walk_ok hw hp] at ht
  cases ht
  exact ⟨w', hempty, rfl⟩

/-- Settles O45: READ_BITS makes the walk that reads back, and the value of at most 64 bits fits RES0. -/
theorem writeReadBitsRoundTrip : Obligations.WriteReadBitsRoundTrip := by
  intro s t hs hq ht hdone
  obtain ⟨_, hc⟩ := State.inBounds_of_inv hs
  obtain ⟨hle, hcur, bs, st, hw, hfield⟩ := readsBack_of_writeBits hq hc ht hdone
  obtain ⟨_, hopa, _⟩ := commandsKeepOperands _ s t ht
  have hcount : opCount (t.moveTo s.eng.cur) = opCount s := congrArg BitVec.toNat hopa
  refine ⟨_, exec_readBits_of_walk_ok (by rwa [hcount]) (by rw [hcount]; exact hw), rfl, ?_, ?_⟩
  · rw [hcur, ← hcount]
    rfl
  · have hlt : s.eng.opb.toNat % 2 ^ opCount s < 2 ^ 64 :=
      (Nat.mod_lt _ (Nat.two_pow_pos _)).trans_le (Nat.pow_le_pow_right two_pos hle)
    simp only [State.succeeded, State.moveTo_cur, hcount, hfield, toNat_ofNat_word (k := 8) le_rfl hlt]

/-- Settles O46: READ_Uxx makes the walk that reads back, and the byte order undoes itself on a value of at most 8 bytes. -/
theorem writeReadUintRoundTrip : Obligations.WriteReadUintRoundTrip := by
  intro wr rd k bo s t hi hs hq ht hdone
  obtain ⟨_, hc⟩ := State.inBounds_of_inv hs
  obtain ⟨hpos, hk, hwrite, hread⟩ : 8 * k ≠ 0 ∧ k ≤ 8 ∧
      exec wr s = .next (s.writeField (ordered bo k (opValue s % 2 ^ (8 * k))) (8 * k)) ∧
      exec rd (t.moveTo s.eng.cur) = .next (readUint k bo (t.moveTo s.eng.cur)) := by
    simp only [List.mem_cons, Prod.mk.injEq, List.not_mem_nil, or_false] at hi
    rcases hi with ⟨rfl, rfl, rfl⟩ | ⟨rfl, rfl, rfl⟩ | ⟨rfl, rfl, rfl⟩ | ⟨rfl, rfl, rfl⟩ <;>
      exact ⟨by decide, by decide, rfl, rfl⟩
  cases ht.symm.trans hwrite
  obtain ⟨hcur, bs, st, hw, hfield⟩ := State.readsBack_writeField hq hc hpos hdone
  have hlt : opValue s % 2 ^ (8 * k) < 2 ^ (8 * k) := Nat.mod_lt _ (Nat.two_pow_pos _)
  rw [Nat.mod_eq_of_lt (ordered_lt bo hlt)] at hfield
  refine ⟨_, hread.trans (congrArg Host.Outcome.next (readUint_of_walk_ok bo hw)), rfl, hcur.symm, ?_⟩
  simp only [State.succeeded, State.moveTo_cur, hfield, ordered_ordered bo hlt, toNat_ofNat_word hk hlt]

end Sys2Proof.Machine
end

section
/-! Exponential-Golomb encode: past their one operand check, WRITE_UE and WRITE_SE are one `write_field` of a code word, and the
decoding of a code word that stands on a quiet store gives its value back (46_golomb_encode.md R190 to R193). -/

namespace Sys2Proof.Machine

/-! ### The code of a signed value -/

/-- The mapping of R192, stated over the integers, names one code. -/
theorem eq_codeOfSigned {v : Int} {k : Nat} (h : (k : Int) = if v = 0 then 0 else if v > 0 then 2 * v - 1 else 2 * -v) :
    k = codeOfSigned v := by
  rw [codeOfSigned]
  split_ifs at h ⊢ <;> omega

/-- Every signed operand but `-2^63` has a code of at most `2^64 - 2` (R192). -/
theorem codeOfSigned_toInt_lt {w : Word} (h : w.toInt ≠ -2 ^ 63) : codeOfSigned w.toInt < 2 ^ 64 - 1 := by
  have hlo : -2 ^ 63 ≤ w.toInt := BitVec.le_toInt w
  have hhi : w.toInt < 2 ^ 63 := BitVec.toInt_lt
  rw [codeOfSigned]
  split_ifs <;> omega

/-! ### The two commands, by their operand check -/

section
variable {s t : State} {k : Nat}

/-- Every unsigned operand but the maximum value is at most `2^64 - 2` (R191). -/
theorem opValue_lt_of_ne (h : opValue s ≠ 2 ^ 64 - 1) : opValue s < 2 ^ 64 - 1 :=
  Nat.lt_of_le_of_ne (Nat.le_sub_one_of_lt s.eng.opb.isLt) h

theorem exec_writeUe_of_max (h : opValue s = 2 ^ 64 - 1) : exec .writeUe s = .next (s.failed s.store .invalidArgument) :=
  if_pos h

theorem exec_writeUe_of_ne (h : opValue s ≠ 2 ^ 64 - 1) : exec .writeUe s = .next (writeCode (opValue s) s) := if_neg h

theorem exec_writeSe_of_min (h : opSigned s = -2 ^ 63) : exec .writeSe s = .next (s.failed s.store .invalidArgument) :=
  if_pos h

theorem exec_writeSe_of_ne (h : opSigned s ≠ -2 ^ 63) : exec .writeSe s = .next (writeCode (codeOfSigned (opSigned s)) s) :=
  if_neg h

/-- A WRITE_UE that succeeds passed its check. -/
theorem writeUe_done (ht : exec .writeUe s = .next t) (hdone : t.eng.status = 1) :
    opValue s ≠ 2 ^ 64 - 1 ∧ t = writeCode (opValue s) s := by
  by_cases hmax : opValue s = 2 ^ 64 - 1
  · cases ht.symm.trans (exec_writeUe_of_max hmax)
    exact absurd hdone (statusFail_ne_one _)
  · cases ht.symm.trans (exec_writeUe_of_ne hmax)
    exact ⟨hmax, rfl⟩

/-- A WRITE_SE that succeeds passed its check. -/
theorem writeSe_done (ht : exec .writeSe s = .next t) (hdone : t.eng.status = 1) :
    opSigned s ≠ -2 ^ 63 ∧ t = writeCode (codeOfSigned (opSigned s)) s := by
  by_cases hmin : opSigned s = -2 ^ 63
  · cases ht.symm.trans (exec_writeSe_of_min hmin)
    exact absurd hdone (statusFail_ne_one _)
  · cases ht.symm.trans (exec_writeSe_of_ne hmin)
    exact ⟨hmin, rfl⟩

/-! ### The write of a code word -/

theorem codeWidth_ne_zero (c : Nat) : codeWidth c ≠ 0 := Nat.one_le_iff_ne_zero.mp (one_le_codeWidth c)

/-- A command that writes the code word of `k` where its operands are `ok` responds as one `write_field` of `codeWidth (k + 1)`
bits, on a quiet store and on any (R190, R191). -/
theorem codeWrite_responds {i : Instr} {n : Nat} {ok : Prop} (hs : s.inv = true) (hn : n = codeWidth (k + 1))
    (hk : ok → k < 2 ^ 64 - 1) (hexec : ok → exec i s = .next (writeCode k s)) :
    (ok → s.store.quiet = true → s.store.hasBits s.eng.cur n →
      ∃ st, st.quiet = true ∧ s.store.sameShape st ∧ n ≤ 127 ∧
        s.store.content.fieldWritten st.content s.eng.cur.address n (k + 1) ∧
        exec i s = .next (s.succeeded st (cursorAt (s.eng.cur.address + n)) 0 0)) ∧
    (ok → s.store.quiet = true → ¬ s.store.hasBits s.eng.cur n →
      ∃ st, st.quiet = true ∧ s.store.sameContent st ∧ exec i s = .next (s.failed st .insufficientData)) ∧
    (∀ r st, ok → walk n s.eng.cur s.store = (.error r, st) →
      exec i s = .next (s.failed st (if r = .oob then .insufficientData else .backingStoreFailure))) ∧
    (∀ bs st q st', ok → walk n s.eng.cur s.store = (.ok bs, st) →
      st.put (mergeField bs s.eng.cur.bit n (k + 1)) s.eng.cur.byte = (q, st') →
      exec i s = .next (if q = .stored then s.succeeded st' (cursorAt (s.eng.cur.address + n)) 0 0
        else s.failed st' .backingStoreFailure)) := by
  obtain ⟨_, hc⟩ := State.inBounds_of_inv hs
  have hwrite (h : ok) : exec i s = .next (s.writeField (k + 1) n) := hn ▸ hexec h
  refine ⟨fun h hq hb => ?_, fun h hq hb => ?_, fun r st h hw => ?_, fun bs st q st' h hw hp => ?_⟩
  · have hwidth : n ≤ 127 := hn ▸ codeWidth_le (Nat.le_add_left 1 k) (Nat.add_lt_of_lt_sub (hk h))
    obtain ⟨st, hq', hshape, hfield, he⟩ := State.writeField_quiet hq hc (k + 1) (hn ▸ codeWidth_ne_zero _) hb
    exact ⟨st, hq', hshape, hwidth, hfield, by rw [hwrite h, he]⟩
  · obtain ⟨st, hq', hsame, he⟩ := State.writeField_noRoom hq hc (k + 1) hb
    exact ⟨st, hq', hsame, by rw [hwrite h, he]⟩
  · rw [hwrite h, State.writeField_of_walk_error _ hw, reasonClass_eq]
  · rw [hwrite h, State.writeField_of_walk_ok hw hp]

/-! ### Reading back the code word -/

/-- A code fits its code word (R190). -/
theorem lt_two_pow_codeWidth (c : Nat) : c < 2 ^ codeWidth c :=
  (lt_two_pow_bitLength c).trans_le
    (Nat.pow_le_pow_right two_pos (by have := one_le_bitLength c; rw [codeWidth]; omega))

/-- A field of a code's width that holds the code decodes to its value on a quiet store, and the decoding ends after the field
(R170, R171). -/
theorem fetchCode_of_field {c : Cursor} {st : Store} (hq : st.quiet = true) (hc : c.byte ≤ Config.maxOffset)
    (hk : k < 2 ^ 64 - 1) (hb : st.hasBits c (codeWidth (k + 1)))
    (hfield : st.content.fieldAt c.address (codeWidth (k + 1)) = k + 1) :
    ∃ st', fetchCode c st = (.ok (k, cursorAt (c.address + codeWidth (k + 1))), st') := by
  have hlen : bitLength (k + 1) ≤ 64 := bitLength_le (Nat.add_lt_of_lt_sub hk) (Nat.le_add_left 1 k)
  have hroom := hb.resolve_left (codeWidth_ne_zero _)
  obtain ⟨z, hz⟩ : ∃ z, bitLength (k + 1) = z + 1 := ⟨_, rfl⟩
  obtain ⟨hcode, hvalue⟩ := Memory.codeAt_of_field (Nat.le_add_left 1 k) hfield
  have hwidth : codeWidth (k + 1) = 2 * z + 1 := by rw [codeWidth, hz]; omega
  rw [hz, Nat.add_sub_cancel] at hcode hvalue
  rw [hwidth] at hroom ⊢
  obtain ⟨st', _, _, he⟩ := fetchCode_quiet hq hc (by omega) hcode hroom
  rw [hvalue, Nat.add_sub_cancel] at he
  exact ⟨st', he⟩

/-- On a quiet store, the decoding from the cursor before a `writeCode` that succeeds gives the written value and ends at the same
cursor (R193). -/
theorem fetchCode_writeCode (hq : s.store.quiet = true) (hc : s.eng.cur.byte ≤ Config.maxOffset) (hk : k < 2 ^ 64 - 1)
    (hdone : (writeCode k s).eng.status = 1) :
    ∃ st, fetchCode s.eng.cur (writeCode k s).store = (.ok (k, (writeCode k s).eng.cur), st) := by
  have hb := State.hasBits_of_writeField_done hq hc hdone
  obtain ⟨st, hq', hshape, ⟨hfield, _⟩, he⟩ := State.writeField_quiet hq hc (k + 1) (codeWidth_ne_zero (k + 1)) hb
  rw [Nat.mod_eq_of_lt (lt_two_pow_codeWidth _)] at hfield
  have hb' : st.hasBits s.eng.cur (codeWidth (k + 1)) := by rwa [Store.hasBits, Store.sameShape_length hshape]
  rw [writeCode, he]
  exact fetchCode_of_field hq' hc hk hb' hfield

end

/-! ### The obligations -/

/-- Settles O47: the check for the maximum value, and below it the write of OPB's code word. -/
theorem writeUeResponds : Obligations.WriteUeResponds :=
  ⟨by decide, fun _ _ hs hn => ⟨exec_writeUe_of_max, codeWrite_responds hs hn opValue_lt_of_ne exec_writeUe_of_ne⟩⟩

/-- Settles O48: the check for the minimum value, and above it the write of the code word of OPB's signed code. -/
theorem writeSeResponds : Obligations.WriteSeResponds := by
  refine ⟨by decide, fun s k n hs hcode hn => ?_⟩
  cases eq_codeOfSigned hcode
  exact ⟨exec_writeSe_of_min, codeWrite_responds hs hn codeOfSigned_toInt_lt exec_writeSe_of_ne⟩

/-- Settles O49: READ_UE makes the decoding that reads the code word back, and OPB is its own value. -/
theorem ueRoundTrip : Obligations.UeRoundTrip := by
  intro s t hs hq ht hdone
  obtain ⟨_, hc⟩ := State.inBounds_of_inv hs
  obtain ⟨hne, rfl⟩ := writeUe_done ht hdone
  obtain ⟨_, hcode⟩ := fetchCode_writeCode hq hc (opValue_lt_of_ne hne) hdone
  exact ⟨_, exec_readUe_of_code hcode, rfl, rfl, (BitVec.ofNat_toNat 64 s.eng.opb).trans (BitVec.setWidth_eq _)⟩

/-- Settles O50: READ_SE makes the decoding that reads the code word back, and the signed reading undoes the mapping. -/
theorem seRoundTrip : Obligations.SeRoundTrip := by
  intro s t hs hq ht hdone
  obtain ⟨_, hc⟩ := State.inBounds_of_inv hs
  obtain ⟨hne, rfl⟩ := writeSe_done ht hdone
  obtain ⟨_, hcode⟩ := fetchCode_writeCode hq hc (codeOfSigned_toInt_lt hne) hdone
  refine ⟨_, exec_readSe_of_code hcode, rfl, rfl, ?_⟩
  simp only [State.succeeded, signedOfCode_codeOfSigned]
  exact BitVec.ofInt_toInt

end Sys2Proof.Machine
end

section
/-! What a failing command leaves of a `SLICE` store (60_exceptions.md R201), the idle block (R211), and the engines and stores
the host puts aside (R216). -/

namespace Sys2Proof.Machine

/-! ### A `SLICE` store under a command that fails -/

/-- A `SLICE` store has no window and no oracle, so the same content is the same store. -/
theorem Store.eq_of_sameContent_slice {st : SliceStore} {b : Store} (h : (Store.slice st).sameContent b) : b = .slice st := by
  cases b with
  | slice st' => exact congrArg Store.slice h
  | windowed w => exact h.elim

/-- A `SLICE` store's `Put` makes no stream call: it stores or is rejected (20_memory.md R59). -/
theorem Store.put_slice_rejected {st : SliceStore} {bs : List Byte} {o : Nat} (h : ((Store.slice st).put bs o).1 ≠ .stored) :
    ((Store.slice st).put bs o).1 = .rejected := by
  simp only [Store.put, SliceStore.put] at h ⊢
  split_ifs at h ⊢
  · exact absurd rfl h
  · rfl
  · exact absurd rfl h

/-- A `write_field` that fails leaves a `SLICE` store as it was: its walk only looks bytes up, and a `Put` that does not store is
rejected and changes nothing (45_bit_insert.md R180). -/
theorem State.writeField_slice_failed {s : State} {st : SliceStore} (hstore : s.store = .slice st) {v n : Nat}
    (hfail : (s.writeField v n).eng.status ≠ 1) : (s.writeField v n).store = s.store := by
  have hwalk : (walk n s.eng.cur s.store).2 = .slice st :=
    Store.eq_of_sameContent_slice (hstore ▸ sameContent_walk n s.eng.cur s.store)
  rcases s.writeField_cases v n with ⟨_, _, he⟩ | ⟨_, _, _, rfl, ⟨hput, he⟩ | ⟨_, he⟩⟩
  · rw [he]
    exact hwalk.trans hstore.symm
  · rw [hwalk] at hput he
    rw [he, hstore]
    exact Store.put_rejected (Store.put_slice_rejected hput)
  · rw [he] at hfail
    exact absurd rfl hfail

/-! ### The host's actions on what is put aside -/

theorem hostServe_selectEngine {s : State} {k : Nat} {e : Engine} (h : s.parked[k]? = some e) :
    hostServe (.selectEngine k) s = .next { s with eng := e, parked := s.parked.set k s.eng } := by
  simp only [hostServe, h]

theorem hostServe_buildStore {s : State} {w : WindowedStore} (hw : s.store = .windowed w) {n : Nat} (hn : n ≠ 0) :
    hostServe (.buildStore n) s = .next (s.switchTo w.stream (newOther n) (s.asOther w :: s.others)) := by
  simp only [hostServe, hw, if_neg hn]

theorem hostServe_selectStore {s : State} {w : WindowedStore} (hw : s.store = .windowed w) {k : Nat} {o : OtherStore}
    (ho : s.others[k]? = some o) :
    hostServe (.selectStore k) s = .next (s.switchTo w.stream o (s.others.set k (s.asOther w))) := by
  simp only [hostServe, hw, ho]

/-! ### The obligations -/

/-- Settles O18: a command that writes nothing keeps the content, which is the whole of a `SLICE` store; any other is one
`write_field`, or a success over no bits. -/
theorem failuresKeepSliceStores : Obligations.FailuresKeepSliceStores := by
  intro i s t st _ hstore ht hfail
  cases hwidth : writtenWidth i s with
  | none =>
    have hsame := nonWritersKeepContent i s t hwidth ht
    rw [hstore] at hsame ⊢
    exact Store.eq_of_sameContent_slice hsame
  | some n =>
    obtain ⟨v, hpos, hzero⟩ := exec_write hwidth
    rcases eq_or_ne n 0 with hn | hn
    · cases ht.symm.trans (hzero hn)
      rfl
    · cases ht.symm.trans (hpos hn)
      exact State.writeField_slice_failed hstore hfail

/-- Settles O6: the step of an idle block is its own state. -/
theorem idleBlockKeepsItsState : Obligations.IdleBlockKeepsItsState := fun _ => step_of_idle

/-- Settles O10: the engine selected and the engine driven so far trade places, over the store as it is. -/
theorem enginesShareTheStore : Obligations.EnginesShareTheStore := by
  intro s k e rest h he
  rw [step_of_serve h rfl, State.taken_eq h]
  exact hostServe_selectEngine he

/-- Settles O11: both actions switch to a store over the one stream and put aside the store in use; selecting store `k` writes
entry `k` of the others only. -/
theorem storesShareTheStream : Obligations.StoresShareTheStream := by
  refine ⟨fun s w n rest hw h hn => ?_, fun s w k o rest hw h ho => ?_⟩
  · rw [step_of_serve h rfl, State.taken_eq h]
    exact hostServe_buildStore (s := { s with host := rest, answer := .nothing }) hw hn
  · rw [step_of_serve h rfl, State.taken_eq h]
    have hk : k < s.others.length := (List.getElem?_eq_some_iff.mp ho).1
    have hserve := hostServe_selectStore (s := { s with host := rest, answer := .nothing }) hw ho
    exact ⟨_, hserve, rfl, rfl, rfl, rfl, List.getElem?_set_self hk, fun j hj => List.getElem?_set_ne hj.symm⟩

end Sys2Proof.Machine
end

section
/-! The stores the host builds and the engine it builds over the store in use (70_reset_and_hazards.md R230, R231, R234). -/

namespace Sys2Proof.Machine

/-! ### The bytes of a built store -/

/-- Bytes written from offset 0 over nothing are what the memory holds, and past their end no byte is listed (log entry 2). -/
theorem Memory.read_writeBytes_nil (bytes : List Byte) (o : Nat) :
    (Memory.writeBytes [] 0 bytes).read o = (bytes[o]?).getD Config.unlistedByte := by
  rw [Memory.read_writeBytes rfl, if_pos (Nat.zero_le o), Nat.sub_zero, Memory.read]

/-! ### The host's actions that build a store -/

theorem hostServe_buildSlice (s : State) {bytes : List Byte} (hlen : bytes.length ≤ Config.maxOffset) :
    hostServe (.buildSlice bytes) s = .next (s.built (newSlice bytes)) := by
  rw [hostServe, if_neg hlen.not_gt]

theorem hostServe_buildWindowed (s : State) {windowSize : Nat} {bytes : List Byte} (gapFill : Byte) (oracle : Oracle)
    (hw : windowSize ≠ 0) (hlen : bytes.length ≤ Config.maxOffset) :
    hostServe (.buildWindowed windowSize gapFill oracle bytes) s =
      .next (s.built (newWindowed windowSize gapFill oracle bytes)) := by
  rw [hostServe, if_neg hw, if_neg hlen.not_gt]

/-! ### The obligations -/

/-- Settles O9: either action builds its store over memory written with the owner's bytes from offset 0, and an engine as after
reset. -/
theorem builtStoresHoldTheOwnersBytes : Obligations.BuiltStoresHoldTheOwnersBytes := by
  refine ⟨fun s bytes rest h hlen => ?_, fun s windowSize fill orc bytes rest h hw hlen => ?_⟩
  · have hstep : step s = .next (s.taken.built (newSlice bytes)) :=
      (step_of_serve h rfl).trans (hostServe_buildSlice _ hlen)
    exact ⟨_, _, hstep, State.built_store _ _, State.built_eng _ _, Memory.read_writeBytes_nil bytes⟩
  · have hstep : step s = .next (s.taken.built (newWindowed windowSize fill orc bytes)) :=
      (step_of_serve h rfl).trans (hostServe_buildWindowed _ fill orc hw hlen)
    exact ⟨_, _, _, hstep, State.built_eng _ _, State.built_store _ _, Memory.read_writeBytes_nil bytes⟩

/-- Settles O8: the engine as after reset, and over each kind of store what the construction leaves of it. -/
theorem buildEngineResets : Obligations.BuildEngineResets := by
  refine ⟨rfl, fun s rest h => ?_⟩
  rw [step_of_serve h rfl, State.taken_eq h, hostServe]
  cases s.store with
  | slice st => rfl
  | windowed w => rfl

end Sys2Proof.Machine
end
